-- ==== Sys2Proof/Word.lean ====
section
/-! DEFINITION. The word and byte types: 00_scope.md rules R7 and R10 (a word is a 32-bit unsigned value, bit 0 the
least significant). -/

namespace Sys2Proof

/-- A 32-bit unsigned word (R7, R10). -/
abbrev Word := BitVec 32

/-- A byte of a message or a digest; only the host functions use it (R42: the core never sees bytes). -/
abbrev Byte := BitVec 8

end Sys2Proof
end

