-- ==== Sys2Proof/Syntax.lean ====
section
/-! DEFINITION. The commands of the core, one constructor for each row of opcode_table.json (30_encoding.md rule R56), and
the two input words of a transaction (R53). -/

namespace Sys2Proof

/-- What the host drives on the command port in one transaction (R53): the 16-bit command word and the 32-bit data operand. -/
structure Command where
  cmd  : BitVec 16
  data : Word
  deriving DecidableEq, Repr

/-- A decoded command with its operands (R54, R55). An index is the 4-bit field IDX; a data operand is kept only by WRM, the
one command that uses it (R55). -/
inductive Instr where
  /-- R75. -/
  | nop
  /-- R76. -/
  | init
  /-- R77: `WRM idx, word`. -/
  | wrm (idx : BitVec 4) (word : Word)
  /-- R78. -/
  | compress
  /-- R87: `RDH idx`; well formed only for idx < 8 (R58 (d)). -/
  | rdh (idx : BitVec 4)
  /-- R88. -/
  | rdstat
  /-- R89. -/
  | rdcnt
  deriving DecidableEq, Repr

end Sys2Proof
end

