-- ==== Sys2Proof/WellFormed.lean ====
section
/-! DEFINITION. Which instructions the encoding admits: the "IDX legal values" column of 30_encoding.md rule R56. -/

namespace Sys2Proof

/-- R56, R58 (d): RDH names one of "exactly 8" Hash State words; WRM admits every 4-bit index; the others have no operand
that could be out of range. -/
def Instr.wf : Instr → Bool
  | .nop => true
  | .init => true
  | .wrm _ _ => true
  | .compress => true
  | .rdh idx => idx.toNat < 8
  | .rdstat => true
  | .rdcnt => true

end Sys2Proof
end

