-- ==== Sys2Proof/Decode.lean ====
section
/-! DEFINITION. The decoder of 30_encoding.md rule R57, total on all command words and rejecting by name, the encoder of
rules R56 and R62, and the opcode table as data. -/

namespace Sys2Proof

/-- R54: the opcode field [15:12]. -/
def Command.op (c : Command) : BitVec 4 := c.cmd.extractLsb' 12 4

/-- R54: the reserved field [11:4]. -/
def Command.rsv (c : Command) : BitVec 8 := c.cmd.extractLsb' 4 8

/-- R54: the index field [3:0]. -/
def Command.idx (c : Command) : BitVec 4 := c.cmd.extractLsb' 0 4

/-- Why a word is ILLEGAL: the four cases (a) to (d) of R58. -/
inductive DecodeError where
  /-- (a) OP in 0x7..0xF. -/
  | reservedOpcode
  /-- (b) RSV != 0. -/
  | reservedBits
  /-- (c) IDX != 0 on a command without an index. -/
  | indexNotZero
  /-- (d) IDX in 8..15 on RDH. -/
  | hashIndexRange
  deriving DecidableEq, Repr

/-- R57, R58 (c): a command without an index needs IDX = 0. -/
def decodeNoIndex (idx : BitVec 4) (i : Instr) : Except DecodeError Instr :=
  if idx = 0 then .ok i else .error .indexNotZero

/-- R57: the decoder, in the order of its pseudocode. An error is the spec's ILLEGAL. -/
def decode (c : Command) : Except DecodeError Instr :=
  if c.rsv ≠ 0 then .error .reservedBits
  else match c.op with
    | 0x0#4 => decodeNoIndex c.idx .nop
    | 0x1#4 => decodeNoIndex c.idx .init
    | 0x2#4 => .ok (.wrm c.idx c.data)
    | 0x3#4 => decodeNoIndex c.idx .compress
    | 0x4#4 => if c.idx.toNat < 8 then .ok (.rdh c.idx) else .error .hashIndexRange
    | 0x5#4 => decodeNoIndex c.idx .rdstat
    | 0x6#4 => decodeNoIndex c.idx .rdcnt
    | _ => .error .reservedOpcode

/-- R54: a command word from its three fields. -/
def packCommand (op : BitVec 4) (rsv : BitVec 8) (idx : BitVec 4) : BitVec 16 := op ++ rsv ++ idx

/-- R56, R62: `cmd = (OP << 12) | i`, with data = word for WRM and 0x00000000 otherwise. -/
def encode : Instr → Command
  | .nop => ⟨packCommand 0x0 0 0, 0⟩
  | .init => ⟨packCommand 0x1 0 0, 0⟩
  | .wrm idx word => ⟨packCommand 0x2 0 idx, word⟩
  | .compress => ⟨packCommand 0x3 0 0, 0⟩
  | .rdh idx => ⟨packCommand 0x4 0 idx, 0⟩
  | .rdstat => ⟨packCommand 0x5 0 0, 0⟩
  | .rdcnt => ⟨packCommand 0x6 0 0, 0⟩

/-- One row of the pattern table of R56: its match, its mask and the instruction a word of it stands for. -/
structure OpcodeRow where
  mnemonic : String
  pattern  : BitVec 16
  mask     : BitVec 16
  deriving DecidableEq, Repr

/-- R56's table of patterns (opcode_table.json). -/
def opcodeTable : List OpcodeRow :=
  [⟨"NOP", 0x0000, 0xFFFF⟩, ⟨"INIT", 0x1000, 0xFFFF⟩, ⟨"WRM", 0x2000, 0xFFF0⟩, ⟨"COMPRESS", 0x3000, 0xFFFF⟩,
   ⟨"RDH", 0x4000, 0xFFF8⟩, ⟨"RDSTAT", 0x5000, 0xFFFF⟩, ⟨"RDCNT", 0x6000, 0xFFFF⟩]

/-- R57: a word matches a row when `(cmd and mask) = match`. -/
def OpcodeRow.hit (r : OpcodeRow) (cmd : BitVec 16) : Bool := cmd &&& r.mask == r.pattern

/-- The name of an instruction's row in opcode_table.json. -/
def Instr.mnemonic : Instr → String
  | .nop => "NOP"
  | .init => "INIT"
  | .wrm _ _ => "WRM"
  | .compress => "COMPRESS"
  | .rdh _ => "RDH"
  | .rdstat => "RDSTAT"
  | .rdcnt => "RDCNT"

/-- The transaction whose bits are `w`, as opcode_table.json numbers them: bits 15..0 the command word, and above them, as a
later word, bits 47..16 the data operand. Bits from `nbits` on are 0 (log 9, DESIGN CHOICE). -/
def tableCommand (nbits w : Nat) : Command :=
  let bits := w % 2 ^ nbits
  ⟨BitVec.ofNat 16 bits, BitVec.ofNat 32 (bits / 2 ^ 16)⟩

/-- What the decoder reads from an instruction whose bits are `w`; none where it refuses. -/
def decodeTableWord (nbits w : Nat) : Option Instr := (decode (tableCommand nbits w)).toOption

end Sys2Proof
end

