-- ==== Sys2Proof/Machine/Datapath.lean ====
section
/-! DEFINITION. The pure functions of the datapath: 40_datapath.md rules R64 to R72. All are total on 32-bit words; none has a
flag or an exception. -/

namespace Sys2Proof.Machine

open Sys2Proof

/-- R64: addition modulo 2^32; no carry is kept. -/
def add32 (x y : Word) : Word := x + y

/-- R66: the logical right shift; zeros fill from the left. R66 gives n in 0..31; that n >= 32 gives 0 is log 19, DESIGN CHOICE (never used). -/
def shr (x : Word) (n : Nat) : Word := x >>> n

/-- R65: `(x >> n) or (x << (32 - n))`, for n < 32 (for n = 0 the left shift gives 0, and rotr(x, 0) = x).
R65 puts n >= 32 outside the definition and N12 of 91_not_in_source.md gives it no value; that the function gives x there is log 19,
DESIGN CHOICE (never used: every shift amount is one of R65's constants). -/
def rotr (x : Word) (n : Nat) : Word := (x >>> n) ||| (x <<< (32 - n))

/-- R67: σ0. -/
def smallSigma0 (x : Word) : Word := rotr x 7 ^^^ rotr x 18 ^^^ shr x 3

/-- R68: σ1. -/
def smallSigma1 (x : Word) : Word := rotr x 17 ^^^ rotr x 19 ^^^ shr x 10

/-- R69: Σ0. -/
def bigSigma0 (x : Word) : Word := rotr x 2 ^^^ rotr x 13 ^^^ rotr x 22

/-- R70: Σ1. -/
def bigSigma1 (x : Word) : Word := rotr x 6 ^^^ rotr x 11 ^^^ rotr x 25

/-- R71: Ch. -/
def choose (x y z : Word) : Word := (x &&& y) ^^^ (~~~x &&& z)

/-- R72: Maj. -/
def majority (x y z : Word) : Word := (x &&& y) ^^^ (x &&& z) ^^^ (y &&& z)

end Sys2Proof.Machine
end

