-- ==== Sys2Proof/Machine/State.lean ====
section
/-! DEFINITION. The state of one core (10_state.md rule R14) as plain data, the schedule of its agents' turns (20_memory.md
rule R48), the state after reset (10_state.md rule R34), and the reasons a step can stop. -/

namespace Sys2Proof.Machine

open Sys2Proof

/-- R23: the engine sequencer PHASE. -/
inductive Phase where
  | idle
  | load
  | round
  | accum
  deriving DecidableEq, Repr

/-- R21: the eight working variables. -/
structure Working where
  a : Word
  b : Word
  c : Word
  d : Word
  e : Word
  f : Word
  g : Word
  h : Word
  deriving DecidableEq, Repr

/-- Which registers hold a value (R12, R34, R38): `m` for each M[i], `w` for each W[j], `v` for a..h, which are only ever written
together (R80, R82), and `j` for the round counter. H's mark is HVALID itself (R16). A write sets a mark and a reset clears it; no
step reads one: they say what R34 and R38 say, that a register has no value after reset and that no step reads such a register
(obligation NoStepReadsARegisterWithoutValue). Log 2 and log 3. -/
structure Held where
  m : Vector Bool 16
  w : Vector Bool 64
  v : Bool
  j : Bool
  deriving DecidableEq, Repr

/-- What can happen in one turn, reset apart (R48): a host transaction, or the engine's turn. -/
inductive Event where
  | transaction (c : Command)
  | engine
  deriving DecidableEq, Repr

/-- One turn: an event, and whether reset is asserted with it. With `reset` true the reset wins and the event does not
happen (R104, R114). -/
structure Turn where
  event : Event
  reset : Bool
  deriving DecidableEq, Repr

/-- Why the machine stops. It is safe and does not occur from a state that meets the invariant R35. A read of a register that
nothing has written is no reason to stop: it gives what the register holds (log 3). -/
inductive Fault where
  /-- A ROUND step whose counter j is 64 or more, where there is no W[j] and no K[j] (R22: "Values 65..127 never occur";
  R35 (c)): raised by the ROUND step. Safe. Log 6. -/
  | noSuchRound
  deriving DecidableEq, Repr

/-- Why the model gives no meaning. -/
inductive Refusal where
  /-- An instruction without a meaning yet: raised by exec's arms only. Safe. No arm raises it. -/
  | notModelled (mnemonic : String)
  deriving DecidableEq, Repr

/-- The state of one core. `h` to `bcnt` are R14's registers, in its order; the ROMs K and IV, constant and the same in every
core, are `romK` and `romIV` of Machine/Rom.lean (R28, R36; log 8). The last three fields are the model's own: `result` is the
command port's output, that of the latest transaction (R53; log 4); `held` is above; `inputs` is the schedule of turns to come
(log 1). -/
structure State where
  h      : Vector Word 8
  hvalid : Bool
  m      : Vector Word 16
  mmask  : BitVec 16
  w      : Vector Word 64
  v      : Working
  j      : BitVec 7
  phase  : Phase
  err    : BitVec 4
  bcnt   : Word
  result : Word
  held   : Held
  inputs : List Turn
  deriving DecidableEq, Repr

/-- What a step answers. -/
abbrev Result := Host.Outcome State Fault Refusal

/-- R34: HVALID = 0, MMASK = 0, PHASE = IDLE, ERR = 0, BCNT = 0, and H, M, W, a..h and j hold no value (nothing is held and
HVALID = 0; the zeros in them are log 2, DESIGN CHOICE). `result` and `inputs`: log 4 and log 1. -/
def State.reset : State where
  h      := Vector.replicate 8 0
  hvalid := false
  m      := Vector.replicate 16 0
  mmask  := 0
  w      := Vector.replicate 64 0
  v      := ⟨0, 0, 0, 0, 0, 0, 0, 0⟩
  j      := 0
  phase  := .idle
  err    := 0
  bcnt   := 0
  result := 0
  held   := ⟨Vector.replicate 16 false, Vector.replicate 64 false, false, false⟩
  inputs := []

end Sys2Proof.Machine
end

