-- ==== Sys2Proof/Machine/Flags.lean ====
section
/-! DEFINITION. The flags, the error causes and the status word: 10_state.md rules R24, R25, R30, R31 and 60_exceptions.md rule
R102. There are no arithmetic condition codes (R31). -/

namespace Sys2Proof.Machine

open Sys2Proof

/-- R24: BUSY = (PHASE != IDLE). -/
def State.busy (s : State) : Bool := s.phase != .idle

/-- R30: MFULL = (MMASK = 0xFFFF). -/
def State.mfull (s : State) : Bool := s.mmask == 0xFFFF

/-- R102: the four causes of a rejection. -/
inductive Cause where
  | illegal
  | busy
  | noInit
  | incomplete
  deriving DecidableEq, Repr

/-- R102: the cause code, which is the index of its ERR bit. -/
def Cause.code : Cause → Nat
  | .illegal => 0
  | .busy => 1
  | .noInit => 2
  | .incomplete => 3

/-- R25, R102: the one ERR bit of a cause. -/
def Cause.bit (c : Cause) : BitVec 4 := 1#4 <<< c.code

/-- R101: whether a command that applies this check fails it in this state. The check for ErrIllegal is the decoder's (R57) and
never fails here. -/
def Cause.fails (c : Cause) (s : State) : Bool :=
  match c with
  | .illegal => false
  | .busy => s.busy
  | .noInit => !s.hvalid
  | .incomplete => !s.mfull

/-- R30: `STATUS = {MMASK[15:0], 0b0000, ERR[3:0], 0b00000, MFULL, HVALID, BUSY}`. -/
def State.status (s : State) : Word :=
  s.mmask ++ 0#4 ++ s.err ++ 0#5 ++ BitVec.ofBool s.mfull ++ BitVec.ofBool s.hvalid ++ BitVec.ofBool s.busy

end Sys2Proof.Machine
end

