-- ==== Sys2Proof/Machine/Operands.lean ====
section
/-! DEFINITION. The operand forms of the commands: 30_encoding.md rule R55. The core has no immediates, no addressing modes and
no register operands: one index form and one data form. -/

namespace Sys2Proof.Machine

open Sys2Proof

/-- R55: the index operand `i = zext_32(cmd[3:0])`, an unsigned value 0..15, as WRM uses it. -/
def blockIndex (idx : BitVec 4) : Fin 16 := ⟨idx.toNat, idx.isLt⟩

/-- R55, R58 (d), R87: the index operand as RDH uses it; none for 8..15, which name no Hash State word. -/
def hashIndex (idx : BitVec 4) : Option (Fin 8) := if h : idx.toNat < 8 then some ⟨idx.toNat, h⟩ else none

end Sys2Proof.Machine
end

