-- ==== Sys2Proof/Machine/Ops.lean ====
section
/-! DEFINITION. The shared operations: rejecting a command, which is this core's way of taking an exception (60_exceptions.md
rule R100), the checks in their order (R101), and the reads and writes of the register banks. There is no trap entry and no
return (R105, R106). A read of a register gives what it holds; that no step reads one that holds no value (10_state.md rule R38)
is the invariant of Safety.lean (log 3). -/

namespace Sys2Proof.Machine

open Sys2Proof

/-- `result <- v` (R12): the port's output. -/
def State.respond (s : State) (v : Word) : State := { s with result := v }

/-- R100: reject. The ERR bit of the cause is set and stays, the result is 0x00000000, nothing else changes. -/
def State.reject (s : State) (c : Cause) : State := { s with err := s.err ||| c.bit, result := 0 }

/-- R101: the first of `checks`, in their order, that fails. -/
def firstFailing (checks : List Cause) (s : State) : Option Cause := checks.find? (·.fails s)

/-- R100, R101: a command with its checks: rejected with the cause of the first that fails, or else performed. -/
def guarded (checks : List Cause) (effect : State → Result) (s : State) : Result :=
  match firstFailing checks s with
  | some c => .next (s.reject c)
  | none => effect s

/-- A read that can stop goes on with its value or stops with its fault. -/
def orFault {α : Type} (r : Except Fault α) (k : α → Result) : Result :=
  match r with
  | .error f => .fault f
  | .ok x => k x

/-- The round counter as ROUND uses it (R22): a round number 0..63. For 64 and more there is no W[j] and no K[j] (log 6). -/
def State.readRound (s : State) : Except Fault (Fin 64) :=
  if h : s.j.toNat < 64 then .ok ⟨s.j.toNat, h⟩ else .error .noSuchRound

/-- `H[i] <- x[i]` for all i, together (R12, R76, R85). -/
def State.writeHash (s : State) (x : Vector Word 8) : State := { s with h := x }

/-- R77: `M[i] <- data; MMASK[i] <- 1`. -/
def State.writeM (s : State) (i : Fin 16) (data : Word) : State :=
  { s with
    m := s.m.set i.val data
    mmask := s.mmask ||| (1#16 <<< i.val)
    held := { s.held with m := s.held.m.set i.val true } }

/-- `W[j] <- x` (R81). -/
def State.writeW (s : State) (j : Fin 64) (x : Word) : State :=
  { s with w := s.w.set j.val x, held := { s.held with w := s.held.w.set j.val true } }

/-- R80: `for t in 0..15: W[t] <- M[t]`: the schedule with its head from the block. -/
def withHead (block : Vector Word 16) (w : Vector Word 64) : Vector Word 64 :=
  Vector.ofFn fun t : Fin 64 => if h : t.val < 16 then block[t.val] else w[t.val]

/-- The marks of the schedule once its head is written. -/
def withHeadHeld (held : Vector Bool 64) : Vector Bool 64 :=
  Vector.ofFn fun t : Fin 64 => if t.val < 16 then true else held[t.val]

/-- R80: the write of W[0..15] on the block that was read. -/
def State.writeScheduleHead (s : State) (block : Vector Word 16) : State :=
  { s with w := withHead block s.w, held := { s.held with w := withHeadHeld s.held.w } }

/-- `(a, ..., h) <- x`, together (R80, R82). -/
def State.writeWorking (s : State) (x : Working) : State :=
  { s with v := x, held := { s.held with v := true } }

/-- `j <- x` (R80, R83). -/
def State.writeJ (s : State) (x : BitVec 7) : State :=
  { s with j := x, held := { s.held with j := true } }

/-- `PHASE <- p` (R23). -/
def State.toPhase (s : State) (p : Phase) : State := { s with phase := p }

/-- `MMASK <- 0x0000` (R19). Clearing MMASK does not change M. -/
def State.clearMask (s : State) : State := { s with mmask := 0 }

/-- The schedule without its first turn, or with one put in front (log 1). -/
def State.withInputs (s : State) (turns : List Turn) : State := { s with inputs := turns }

end Sys2Proof.Machine
end

