-- ==== Sys2Proof/Machine/Readout.lean ====
section
/-! DEFINITION. The read-out commands: 43_readout.md rules R87 (RDH), R88 (RDSTAT) and R89 (RDCNT). None of them changes state
unless it is rejected (20_memory.md rule R46). -/

namespace Sys2Proof.Machine

open Sys2Proof

/-- R87: `result <- H[i]`, read only where HVALID = 1, so that H holds values (R16). An index of 8..15 is the decoder's ErrIllegal, before every other check (R58 (d), R101; log 10). -/
def execRdh (idx : BitVec 4) (s : State) : Result :=
  match hashIndex idx with
  | none => .next (s.reject .illegal)
  | some i => guarded [.busy, .noInit] (fun s => .next (s.respond s.h[i.val])) s

/-- R88: accepted in every state; reading does not clear ERR. -/
def execRdstat (s : State) : Result := .next (s.respond s.status)

/-- R89: HVALID is not checked. -/
def execRdcnt (s : State) : Result := guarded [.busy] (fun s => .next (s.respond s.bcnt)) s

end Sys2Proof.Machine
end

