-- ==== Sys2Proof/Machine/Setup.lean ====
section
/-! DEFINITION. The initialisation and block-load commands: 41_init_and_load.md rules R75 (NOP), R76 (INIT) and R77 (WRM). -/

namespace Sys2Proof.Machine

open Sys2Proof

/-- R75: accepted in every state; the result is 0. -/
def execNop (s : State) : Result := .next (s.respond 0)

/-- R76: `H <- IV; HVALID <- 1; MMASK, BCNT, ERR <- 0`. -/
def State.beginHash (s : State) : State :=
  { (s.writeHash romIV).clearMask with hvalid := true, bcnt := 0, err := 0 }

/-- R76: rejected with ErrBusy while a block compression is in flight. -/
def execInit (s : State) : Result := guarded [.busy] (fun s => .next (s.beginHash.respond 0)) s

/-- R77: the word is taken as a value (R42); HVALID is not checked. -/
def execWrm (idx : BitVec 4) (word : Word) (s : State) : Result :=
  guarded [.busy] (fun s => .next ((s.writeM (blockIndex idx) word).respond 0)) s

end Sys2Proof.Machine
end

