-- ==== Sys2Proof/Machine/Start.lean ====
section
/-! DEFINITION. The command that starts a block compression: 42_compress_engine.md rule R78 (COMPRESS). -/

namespace Sys2Proof.Machine

open Sys2Proof

/-- R78: `MMASK <- 0; PHASE <- LOAD`; H changes only at ACCUM. -/
def State.beginBlock (s : State) : State := s.clearMask.toPhase .load

/-- R78, with the checks of R101 in their order. -/
def execCompress (s : State) : Result :=
  guarded [.busy, .noInit, .incomplete] (fun s => .next (s.beginBlock.respond 0)) s

end Sys2Proof.Machine
end

