-- ==== Sys2Proof/Machine/Dispatch.lean ====
section
/-! DEFINITION. The dispatch of a decoded command to its meaning, one arm for each constructor (30_encoding.md rule R56). -/

namespace Sys2Proof.Machine
open Sys2Proof

def exec (i : Instr) (s : State) : Host.Outcome State Fault Refusal :=
  match i with
  -- 41_init_and_load.md
  | .nop => Sys2Proof.Machine.execNop s
  | .init => Sys2Proof.Machine.execInit s
  | .wrm idx word => Sys2Proof.Machine.execWrm idx word s
  -- 42_compress_engine.md
  | .compress => Sys2Proof.Machine.execCompress s
  -- 43_readout.md
  | .rdh idx => Sys2Proof.Machine.execRdh idx s
  | .rdstat => Sys2Proof.Machine.execRdstat s
  | .rdcnt => Sys2Proof.Machine.execRdcnt s

end Sys2Proof.Machine
end

