-- ==== Sys2Proof/Machine/Engine.lean ====
section
/-! DEFINITION. The engine agent and its three steps: 42_compress_engine.md rules R79 to R85. The one fault here
is a round number that does not exist (log 6); it does not occur under the invariant R35. -/

namespace Sys2Proof.Machine

open Sys2Proof

/-- R80: `a <- H[0]; ...; h <- H[7]`. -/
def workingOfHash (x : Vector Word 8) : Working := ⟨x[0], x[1], x[2], x[3], x[4], x[5], x[6], x[7]⟩

/-- R80: the LOAD step. -/
def loadStep (s : State) : Result :=
  .next ((((s.writeScheduleHead s.m).writeWorking (workingOfHash s.h)).writeJ 0).toPhase .round)

/-- R81: `σ1(W[j-2]) + W[j-7] + σ0(W[j-15]) + W[j-16]`, from the four words in that order. -/
def expandWord (w2 w7 w15 w16 : Word) : Word :=
  add32 (add32 (add32 (smallSigma1 w2) w7) (smallSigma0 w15)) w16

/-- R81: the schedule word of round j: the recurrence for j >= 16; for j < 16 what LOAD wrote. -/
def roundWord (s : State) (j : Fin 64) : Word :=
  if h : 16 ≤ j.val then expandWord s.w[j.val - 2] s.w[j.val - 7] s.w[j.val - 15] s.w[j.val - 16] else s.w[j.val]

/-- R81: the expander of the ROUND step with counter j; "For j < 16 ... nothing is computed". -/
def expand (s : State) (j : Fin 64) : State := if 16 ≤ j.val then s.writeW j (roundWord s j) else s

/-- R82: T1. -/
def temp1 (x : Working) (k w : Word) : Word :=
  add32 (add32 (add32 (add32 x.h (bigSigma1 x.e)) (choose x.e x.f x.g)) k) w

/-- R82: T2. -/
def temp2 (x : Working) : Word := add32 (bigSigma0 x.a) (majority x.a x.b x.c)

/-- R82: the round, all writes taking effect together. -/
def roundUpdate (x : Working) (k w : Word) : Working :=
  ⟨add32 (temp1 x k w) (temp2 x), x.a, x.b, x.c, add32 x.d (temp1 x k w), x.e, x.f, x.g⟩

/-- R83: `j <- j + 1; if j == 64: PHASE <- ACCUM`. -/
def State.advance (s : State) : State :=
  let s' := s.writeJ (s.j + 1)
  if s'.j = 64 then s'.toPhase .accum else s'

/-- R82: round j on the schedule as it stands, with the W[j] "that step 1 may just have written" (R84). -/
def State.mix (s : State) (j : Fin 64) : State := s.writeWorking (roundUpdate s.v (romK j) s.w[j.val])

/-- R84: the ROUND step: the expander, the round, the advance. -/
def roundStep (s : State) : Result :=
  orFault s.readRound fun j => .next ((expand s j).mix j).advance

/-- R85: `H[0] <- add32(H[0], a); ...; H[7] <- add32(H[7], h)`. -/
def accumulate (x : Vector Word 8) (y : Working) : Vector Word 8 :=
  #v[add32 x[0] y.a, add32 x[1] y.b, add32 x[2] y.c, add32 x[3] y.d,
     add32 x[4] y.e, add32 x[5] y.f, add32 x[6] y.g, add32 x[7] y.h]

/-- R85: the ACCUM step. H, BCNT and BUSY change in one transition (R49). It does not test j (log 7). -/
def accumStep (s : State) : Result :=
  .next ({ s.writeHash (accumulate s.h s.v) with bcnt := add32 s.bcnt 1 }.toPhase .idle)

/-- R79: the step the engine takes depends only on PHASE; with PHASE = IDLE it is not enabled and its turn changes nothing
(log 5). -/
def engineStep (s : State) : Result :=
  match s.phase with
  | .idle => .next s
  | .load => loadStep s
  | .round => roundStep s
  | .accum => accumStep s

end Sys2Proof.Machine
end

