-- ==== Sys2Proof/Machine/Port.lean ====
section
/-! DEFINITION. The command port, the engine's turn and reset as transitions of one core: 30_encoding.md rule R53, 20_memory.md
rule R48, 60_exceptions.md rule R104 and 70_reset_and_hazards.md rule R114. -/

namespace Sys2Proof.Machine

open Sys2Proof

/-- R53, R57, R58: one transaction. An ILLEGAL word is rejected with ErrIllegal before every other check. -/
def transact (c : Command) (s : State) : Result :=
  match decode c with
  | .error _ => .next (s.reject .illegal)
  | .ok i => exec i s

/-- R114: reset sets every piece of state to its value after reset. The schedule is not state of the core and goes on
(log 1). -/
def State.resetNow (s : State) : State := State.reset.withInputs s.inputs

/-- R48, R104: one turn. Reset wins over the transition it coincides with. -/
def takeTurn (t : Turn) (s : State) : Result :=
  if t.reset then .next s.resetNow
  else match t.event with
    | .transaction c => transact c s
    | .engine => engineStep s

/-- The turn of the engine alone: what happens when the schedule is empty (R120; log 1). -/
def engineTurn : Turn := ⟨.engine, false⟩

/-- The turn of the platform alone: a reset (R114). The event it carries does not happen (R104). -/
def resetTurn : Turn := ⟨.engine, true⟩

/-- A transaction with no reset. -/
def hostTurn (c : Command) : Turn := ⟨.transaction c, false⟩

/-- The next turn of the schedule, and the state without it. -/
def State.nextTurn (s : State) : Turn × State :=
  match s.inputs with
  | [] => (engineTurn, s)
  | t :: rest => (t, s.withInputs rest)

/-- A list of turns taken one after another, stopping at the first that does not answer a next state (R48). -/
def runTurns : List Turn → State → Result
  | [], s => .next s
  | t :: rest, s =>
    match takeTurn t s with
    | .next s' => runTurns rest s'
    | .fault f => .fault f
    | .refused r => .refused r

end Sys2Proof.Machine
end

