-- ==== Sys2Proof/Machine/Step.lean ====
section
/-! DEFINITION. One step of one core (20_memory.md rule R48): the next turn of its schedule. -/

namespace Sys2Proof.Machine

open Sys2Proof

/-- R48: each step is one transition: a host transaction, an engine step or a reset, as the schedule says. -/
def step (s : State) : Host.Outcome State Fault Refusal := takeTurn s.nextTurn.1 s.nextTurn.2

/-- The state whose very next step is the transaction of that instruction: it is put in front of the schedule (log 9). -/
def State.withFetchWord (s : State) (nbits w : Nat) : State :=
  s.withInputs (hostTurn (tableCommand nbits w) :: s.inputs)

end Sys2Proof.Machine
end

