-- ==== Sys2Proof/Machine/Asm.lean ====
section
/-! DEFINITION. The command syntax and the pseudo-instructions: 30_encoding.md rules R62 and R63. All of it is on the host's
side; the core sees only transactions. Log 16 names what the spec leaves open in the text form. -/

namespace Sys2Proof.Machine

open Sys2Proof

/-- One thing a host program does on the port: a command, a raw command word with data 0 (95_test_vectors.md P4's `.word`), or
the polling loop WAITIDLE (R63). -/
inductive HostOp where
  | issue (i : Instr)
  | raw (cmd : BitVec 16)
  | waitIdle
  deriving DecidableEq, Repr

/-- The transaction of one host operation; a turn of WAITIDLE issues RDSTAT (R63). -/
def HostOp.command : HostOp → Command
  | .issue i => encode i
  | .raw cmd => ⟨cmd, 0⟩
  | .waitIdle => encode .rdstat

/-- R63: WRBLK w0, ..., w15 expands to WRM 0, w0 through WRM 15, w15, in index order. -/
def wrblk (ws : Vector Word 16) : List HostOp :=
  (List.finRange 16).map fun i => .issue (.wrm (BitVec.ofNat 4 i.val) ws[i.val])

/-- R63: RDDIG expands to RDH 0 through RDH 7, in index order. -/
def rddig : List HostOp := (List.finRange 8).map fun i => .issue (.rdh (BitVec.ofNat 4 i.val))

/-- R63: BLOCK w0, ..., w15 expands to WRBLK w0, ..., w15; COMPRESS; WAITIDLE. -/
def blockOps (ws : Vector Word 16) : List HostOp := wrblk ws ++ [.issue .compress, .waitIdle]

/-- A host operation and the name its result is kept under, if any (R62: `-> name`). -/
structure AsmItem where
  op   : HostOp
  dest : Option (List Char)
  deriving DecidableEq, Repr

/-- Why the assembler refuses a line (R62: an index out of its range is an assembly error). -/
inductive AsmError where
  | unknownMnemonic
  | malformed
  | indexRange
  deriving DecidableEq, Repr

/-- The tokens of a line: R62's comment from `;` on is dropped, a comma is a token of its own, blanks separate. `cur` is the
token being read, reversed. -/
def tokens : List Char → List Char → List (List Char)
  | [], cur => if cur = [] then [] else [cur.reverse]
  | c :: rest, cur =>
    let done := if cur = [] then [] else [cur.reverse]
    if c = ';' then done
    else if c = ' ' ∨ c = '\t' then done ++ tokens rest []
    else if c = ',' then done ++ [','] :: tokens rest []
    else tokens rest (c :: cur)

/-- The value of a decimal digit. -/
def decDigit (c : Char) : Option Nat := if 48 ≤ c.toNat ∧ c.toNat ≤ 57 then some (c.toNat - 48) else none

/-- The value of a hexadecimal digit, in either case. -/
def hexDigit (c : Char) : Option Nat :=
  if 48 ≤ c.toNat ∧ c.toNat ≤ 57 then some (c.toNat - 48)
  else if 97 ≤ c.toNat ∧ c.toNat ≤ 102 then some (c.toNat - 87)
  else if 65 ≤ c.toNat ∧ c.toNat ≤ 70 then some (c.toNat - 55)
  else none

/-- The value of a list of digits in a base, continuing from `acc`. -/
def digitsValue (digit : Char → Option Nat) (base : Nat) : List Char → Nat → Option Nat
  | [], acc => some acc
  | c :: rest, acc => (digit c).bind fun d => digitsValue digit base rest (acc * base + d)

/-- R62: an index, in decimal. -/
def parseIndex (t : List Char) : Except AsmError Nat :=
  if t = [] then .error .malformed
  else match digitsValue decDigit 10 t 0 with
    | some n => .ok n
    | none => .error .malformed

/-- R62: a hex constant, `0x` followed by exactly `digits` digits. -/
def parseHex (digits : Nat) (t : List Char) : Except AsmError Nat :=
  match t with
  | '0' :: 'x' :: ds =>
    if ds.length = digits then
      match digitsValue hexDigit 16 ds 0 with
      | some n => .ok n
      | none => .error .malformed
    else .error .malformed
  | _ => .error .malformed

/-- The operands of a line, separated by commas. -/
def operands : List (List Char) → Except AsmError (List (List Char))
  | [] => .ok []
  | [x] => if x = [','] then .error .malformed else .ok [x]
  | x :: y :: rest =>
    if x = [','] ∨ y ≠ [','] ∨ rest = [] then .error .malformed
    else (operands rest).map (x :: ·)

/-- R62 does not say what a `<name>` is. The model takes any one token but a comma and `->` (log 16, DESIGN CHOICE). -/
def isName (t : List Char) : Bool := t ≠ [','] ∧ t ≠ ['-', '>']

/-- R62: the part of a line before `->`, and the one name after it. What counts as a name is `isName`, the model's choice
(log 16), and so is that a line need not have one: `none` where there is no `->`. -/
def splitDest (ts : List (List Char)) : Except AsmError (List (List Char) × Option (List Char)) :=
  match ts.span (· ≠ ['-', '>']) with
  | (front, []) => .ok (front, none)
  | (front, [_, name]) => if isName name then .ok (front, some name) else .error .malformed
  | _ => .error .malformed

/-- R62: only a read command has a result to name. -/
def noDest (dest : Option (List Char)) (ops : List HostOp) : Except AsmError (List AsmItem) :=
  if dest = none then .ok (ops.map fun op => ⟨op, none⟩) else .error .malformed

/-- The sixteen data words of WRBLK and BLOCK. -/
def parseBlock (args : List (List Char)) : Except AsmError (Vector Word 16) := do
  let ws ← args.mapM (parseHex 8)
  if ws.length = 16 then return Vector.ofFn fun i : Fin 16 => BitVec.ofNat 32 (ws.getD i.val 0)
  else .error .malformed

/-- R62: WRM takes an index in 0..15 and a data word. -/
def assembleWrm (i w : List Char) : Except AsmError HostOp := do
  let idx ← parseIndex i
  let word ← parseHex 8 w
  if idx < 16 then return .issue (.wrm (BitVec.ofNat 4 idx) (BitVec.ofNat 32 word)) else .error .indexRange

/-- R62: RDH takes an index in 0..7. -/
def assembleRdh (i : List Char) : Except AsmError HostOp := do
  let idx ← parseIndex i
  if idx < 8 then return .issue (.rdh (BitVec.ofNat 4 idx)) else .error .indexRange

/-- R63: RDDIG's results are named H0 to H7. -/
def rddigItems : List AsmItem :=
  (List.finRange 8).map fun i => ⟨.issue (.rdh (BitVec.ofNat 4 i.val)), some ['H', Char.ofNat (48 + i.val)]⟩

/-- R62, R63: one mnemonic with its operands and its result name. A read command may stand without a name (log 16, DESIGN
CHOICE: R62 says how the name is written, not that it may be left out). WAITIDLE keeps no result under a name: R63 writes its poll as
`RDSTAT -> s` and does not say whether s holds the last status after the loop; here s is local to the loop (log 16, DESIGN
CHOICE). -/
def assembleOp (mnemonic : List Char) (args : List (List Char)) (dest : Option (List Char)) :
    Except AsmError (List AsmItem) :=
  if mnemonic = ['N', 'O', 'P'] then
    if args = [] then noDest dest [.issue .nop] else .error .malformed
  else if mnemonic = ['I', 'N', 'I', 'T'] then
    if args = [] then noDest dest [.issue .init] else .error .malformed
  else if mnemonic = ['C', 'O', 'M', 'P', 'R', 'E', 'S', 'S'] then
    if args = [] then noDest dest [.issue .compress] else .error .malformed
  else if mnemonic = ['R', 'D', 'S', 'T', 'A', 'T'] then
    if args = [] then .ok [⟨.issue .rdstat, dest⟩] else .error .malformed
  else if mnemonic = ['R', 'D', 'C', 'N', 'T'] then
    if args = [] then .ok [⟨.issue .rdcnt, dest⟩] else .error .malformed
  else if mnemonic = ['W', 'R', 'M'] then
    match args with
    | [i, w] => do noDest dest [← assembleWrm i w]
    | _ => .error .malformed
  else if mnemonic = ['R', 'D', 'H'] then
    match args with
    | [i] => do return [⟨← assembleRdh i, dest⟩]
    | _ => .error .malformed
  else if mnemonic = ['W', 'A', 'I', 'T', 'I', 'D', 'L', 'E'] then
    if args = [] then noDest dest [.waitIdle] else .error .malformed
  else if mnemonic = ['R', 'D', 'D', 'I', 'G'] then
    if args = [] ∧ dest = none then .ok rddigItems else .error .malformed
  else if mnemonic = ['W', 'R', 'B', 'L', 'K'] then do noDest dest (wrblk (← parseBlock args))
  else if mnemonic = ['B', 'L', 'O', 'C', 'K'] then do noDest dest (blockOps (← parseBlock args))
  else if mnemonic = ['.', 'w', 'o', 'r', 'd'] then
    match args with
    | [w] => do noDest dest [.raw (BitVec.ofNat 16 (← parseHex 4 w))]
    | _ => .error .malformed
  else .error .unknownMnemonic

/-- R62: one line. That a line without a command (empty, blanks or a comment alone) gives nothing is log 16, DESIGN CHOICE: R62
speaks of one command a line and is silent on it. -/
def assembleLine (line : List Char) : Except AsmError (List AsmItem) :=
  match tokens line [] with
  | [] => .ok []
  | mnemonic :: rest => do
    let (front, dest) ← splitDest rest
    let args ← operands front
    assembleOp mnemonic args dest

end Sys2Proof.Machine
end

