-- ==== Sys2Proof/Machine/Compress.lean ====
section
/-! DEFINITION. The block compression function of 42_compress_engine.md rule R86, written as the source writes it: the whole
schedule first (§4.2 step 2), then 64 rounds (step 4), then the accumulation (step 5). The engine expands lazily, one word a
ROUND step (R80, R81); that both give the same H is an obligation, not a definition. Also the 16-word window of
92_eei_decisions.md D23. -/

namespace Sys2Proof.Machine

open Sys2Proof

/-- §4.2 step 1: W[0..15] from the block. The zeros above are overwritten by `expandTo` before any round reads them. -/
def scheduleHead (block : Vector Word 16) : Vector Word 64 := withHead block (Vector.replicate 64 0)

/-- §4.2 step 2 for the one index j. -/
def expandAt (w : Vector Word 64) (j : Nat) (h : 16 ≤ j ∧ j < 64) : Vector Word 64 :=
  w.set j (expandWord w[j - 2] w[j - 7] w[j - 15] w[j - 16])

/-- §4.2 step 2 for the first n indexes j = 16, 17, ..., in order. -/
def expandTo (w : Vector Word 64) : Nat → Vector Word 64
  | 0 => w
  | n + 1 => if h : 16 + n < 64 then expandAt (expandTo w n) (16 + n) (by omega) else expandTo w n

/-- §4.2 steps 1 and 2: the message schedule W[0..63] of a block. -/
def messageSchedule (block : Vector Word 16) : Vector Word 64 := expandTo (scheduleHead block) 48

/-- §4.2 step 4 for the first n rounds j = 0, 1, ..., in order. -/
def rounds (w : Vector Word 64) (x : Working) : Nat → Working
  | 0 => x
  | n + 1 => if h : n < 64 then roundUpdate (rounds w x n) (romK ⟨n, h⟩) w[n] else rounds w x n

/-- R86: Compress(H, B). -/
def compress (hash : Vector Word 8) (block : Vector Word 16) : Vector Word 8 :=
  accumulate hash (rounds (messageSchedule block) (workingOfHash hash) 64)

/-- D23: one step of a circular window: `win` holds W[j-16..j-1], oldest first, and the new window ends with W[j]. -/
def slideWindow (win : Vector Word 16) : Vector Word 16 :=
  #v[win[1], win[2], win[3], win[4], win[5], win[6], win[7], win[8], win[9], win[10], win[11], win[12], win[13], win[14],
     win[15], expandWord win[14] win[9] win[1] win[0]]

/-- D23: the window after n steps from the block: it holds W[n..n+15]. -/
def windowAfter (block : Vector Word 16) : Nat → Vector Word 16
  | 0 => block
  | n + 1 => slideWindow (windowAfter block n)

end Sys2Proof.Machine
end

