-- ==== Sys2Proof/Machine/Framing.lean ====
section
/-! DEFINITION. The host functions of 45_host_framing.md: padding (rules R91 to R93), word packing (R94), digest serialisation
(R96), its text form (R97) and the message-level function (R98). They are host conventions, outside the core (00_scope.md rule
R4, 45_host_framing.md rule R90); the core enforces none of them. -/

namespace Sys2Proof.Machine

open Sys2Proof

/-- R91: a message of 2^61 bytes or more is refused (90_conflicts.md C2). -/
def messageTooLong (m : List Byte) : Bool := 2 ^ 61 ≤ m.length

/-- R93: z = (55 - len) mod 64, taken in 0..63. -/
def zeroCount (len : Nat) : Nat := ((55 - (len : Int)) % 64).toNat

/-- R93: n = floor((len + 8) / 64) + 1. -/
def blockCount (len : Nat) : Nat := (len + 8) / 64 + 1

/-- R92: the 8 bytes of a 64-bit value, "most-significant byte first". -/
def bytesOf64 (x : BitVec 64) : List Byte :=
  [x.extractLsb' 56 8, x.extractLsb' 48 8, x.extractLsb' 40 8, x.extractLsb' 32 8,
   x.extractLsb' 24 8, x.extractLsb' 16 8, x.extractLsb' 8 8, x.extractLsb' 0 8]

/-- R92: the message, one byte 0x80, z bytes 0x00, and the 8 bytes of L = len * 8. For len >= 2^61, which
R91 refuses, L is taken modulo 2^64 (log 19, DESIGN CHOICE). -/
def pad (m : List Byte) : List Byte :=
  m ++ [0x80] ++ List.replicate (zeroCount m.length) 0 ++ bytesOf64 (BitVec.ofNat 64 (m.length * 8))

/-- R94: Wd[k] = P[4k], P[4k+1], P[4k+2], P[4k+3], the first the most significant. Padded bytes come in fours (R92); that a
rest of fewer than four would be dropped is log 19, DESIGN CHOICE. -/
def pack : List Byte → List Word
  | b0 :: b1 :: b2 :: b3 :: rest => (b0 ++ b1 ++ b2 ++ b3) :: pack rest
  | _ => []

/-- R94: word i of a block, from its list of sixteen words (that a missing word would be 0 is log 19, DESIGN CHOICE). -/
def blockOf (ws : List Word) : Vector Word 16 := Vector.ofFn fun i : Fin 16 => ws.getD i.val 0

/-- R94: block b is Wd[16b .. 16b+15]; the first n blocks, in order. -/
def blocksOf (ws : List Word) : Nat → List (Vector Word 16)
  | 0 => []
  | n + 1 => blockOf (ws.take 16) :: blocksOf (ws.drop 16) n

/-- R94, R95: the blocks of a message; `n = length(Wd) / 16`. -/
def messageBlocks (m : List Byte) : List (Vector Word 16) :=
  let ws := pack (pad m)
  blocksOf ws (ws.length / 16)

/-- R96: one word as four bytes, most significant first. -/
def bytesOfWord (x : Word) : List Byte :=
  [x.extractLsb' 24 8, x.extractLsb' 16 8, x.extractLsb' 8 8, x.extractLsb' 0 8]

/-- R96: Serialize, on a list of words in state order. -/
def serializeWords (ws : List Word) : List Byte := ws.flatMap bytesOfWord

/-- R96: Serialize(H[0..7]). -/
def serialize (hash : Vector Word 8) : List Byte := serializeWords hash.toList

/-- R98: Serialize(Compress(... Compress(Compress(IV, B_0), B_1) ..., B_{n-1})). -/
def hashBlocks (blocks : List (Vector Word 16)) : Vector Word 8 := blocks.foldl compress romIV

/-- R98: Hash(m); none where the host refuses the message (R91). -/
def messageHash (m : List Byte) : Option (List Byte) :=
  if messageTooLong m then none else some (serialize (hashBlocks (messageBlocks m)))

/-- A lowercase hexadecimal digit of a value below 16 (from 16 on its value is log 19, DESIGN CHOICE). -/
def hexDigitOf (n : Nat) : Char := if n < 10 then Char.ofNat (48 + n) else Char.ofNat (87 + n)

/-- R13, R97: the lowercase hexadecimal text of a byte sequence, two digits a byte, in byte order. -/
def hexText (bs : List Byte) : List Char :=
  bs.flatMap fun b => [hexDigitOf (b.toNat / 16), hexDigitOf (b.toNat % 16)]

end Sys2Proof.Machine
end

