-- ==== Sys2Proof/Machine/Driver.lean ====
section
/-! DEFINITION. The host's driver for Hash(m), as an agent beside one core: 45_host_framing.md rules R95 and R99. Each of its
moves issues one transaction and looks at its result; moves of the host and of the engine interleave in any order (20_memory.md
rule R48). Log 13. -/

namespace Sys2Proof.Machine

open Sys2Proof

/-- The lines of R95's driver sequence. -/
inductive DriverOp where
  /-- A command or a WAITIDLE. -/
  | asm (op : HostOp)
  /-- `RDSTAT -> s; if s[11:8] != 0: fail`. -/
  | checkErr
  /-- `RDCNT -> c; if c != n mod 2^32: fail`. -/
  | checkCount (n : Word)
  /-- `RDH i -> Hw[i]`. -/
  | readHash (idx : BitVec 4)
  /-- `return Serialize(Hw[0..7])`. -/
  | ret
  deriving DecidableEq, Repr

/-- The transaction a line issues; `return` issues none. -/
def DriverOp.command : DriverOp → Option Command
  | .asm op => some op.command
  | .checkErr => some (encode .rdstat)
  | .checkCount _ => some (encode .rdcnt)
  | .readHash idx => some (encode (.rdh idx))
  | .ret => none

/-- Why the driver fails (R91, R95, R99). -/
inductive DriverFailure where
  | tooLong
  | allocation
  | rejected
  | wrongCount
  deriving DecidableEq, Repr

/-- Where the driver stands. -/
inductive DriverStatus where
  | running
  | failed (why : DriverFailure)
  | returned (digest : List Byte)
  deriving DecidableEq, Repr

/-- The host: the lines still to run, the words Hw read so far in order (none once it has ended), and where it stands. -/
structure Driver where
  todo   : List DriverOp
  hw     : List Word
  status : DriverStatus
  deriving DecidableEq, Repr

/-- R95: the lines after INIT for the blocks, then the checks and the read-out. -/
def driverOps (blocks : List (Vector Word 16)) : List DriverOp :=
  [.asm .waitIdle, .asm (.issue .init)] ++ blocks.flatMap (fun b => (blockOps b).map .asm) ++
    [.checkErr, .checkCount (BitVec.ofNat 32 blocks.length)] ++
    ((List.finRange 8).map fun i => .readHash (BitVec.ofNat 4 i.val)) ++ [.checkErr, .ret]

/-- R91, R95, R99: the driver at the start of Hash(m); a message that is too long and a buffer that cannot be allocated fail
before any transaction. -/
def Driver.start (m : List Byte) (canAllocate : Bool) : Driver :=
  if messageTooLong m then ⟨[], [], .failed .tooLong⟩
  else if canAllocate then ⟨driverOps (messageBlocks m), [], .running⟩
  else ⟨[], [], .failed .allocation⟩

/-- The driver ends: it drops the words Hw. For one that returns, C6 of 90_conflicts.md says so ("The host drops the words after
serialising them"); that one that fails drops them too is log 13. -/
def Driver.finish (d : Driver) (status : DriverStatus) : Driver := { d with hw := [], status := status }

/-- What the driver does with the result of the line `op`, the lines after it being `rest` (R63, R95). -/
def Driver.observe (d : Driver) (op : DriverOp) (rest : List DriverOp) (result : Word) : Driver :=
  match op with
  | .asm .waitIdle => if result.getLsbD 0 then d else { d with todo := rest }
  | .asm (.issue _) => { d with todo := rest }
  | .asm (.raw _) => { d with todo := rest }
  | .checkErr => if result.extractLsb' 8 4 = 0 then { d with todo := rest } else d.finish (.failed .rejected)
  | .checkCount n => if result = n then { d with todo := rest } else d.finish (.failed .wrongCount)
  | .readHash _ => { d with todo := rest, hw := d.hw ++ [result] }
  | .ret => { d with todo := rest }.finish (.returned (serializeWords d.hw))

/-- A host and its core. -/
structure Rig where
  driver : Driver
  core   : State
  deriving DecidableEq, Repr

/-- Who moves: the host's driver, the engine, or the platform with a reset of the core (R48, R114). When a reset falls, if at
all, is open (93_implementation_defined.md U5): it may stand anywhere in a list of moves. A reset does not touch the driver
(log 13). -/
inductive Agent where
  | host
  | engine
  | reset
  deriving DecidableEq, Repr

/-- A move of the core under a host that does not move. -/
def Rig.moveCore (r : Rig) (t : Turn) (k : State → Rig) : Host.Outcome Rig Fault Refusal :=
  match takeTurn t r.core with
  | .next s => .next (k s)
  | .fault f => .fault f
  | .refused x => .refused x

/-- One move of the host: the next line of a running driver; a driver that has ended does not move. -/
def Rig.hostMove (r : Rig) : Host.Outcome Rig Fault Refusal :=
  match r.driver.status, r.driver.todo with
  | .running, op :: rest =>
    match op.command with
    | some c => r.moveCore (hostTurn c) fun s => ⟨r.driver.observe op rest s.result, s⟩
    | none => .next ⟨r.driver.observe op rest 0, r.core⟩
  | _, _ => .next r

/-- One move: of the host, of the engine, or of the platform, whose reset the host is not told of (log 13). -/
def Rig.move (a : Agent) (r : Rig) : Host.Outcome Rig Fault Refusal :=
  match a with
  | .host => r.hostMove
  | .engine => r.moveCore engineTurn fun s => ⟨r.driver, s⟩
  | .reset => r.moveCore resetTurn fun s => ⟨r.driver, s⟩

/-- A list of moves, stopping at the first that does not answer a next state. -/
def Rig.run : List Agent → Rig → Host.Outcome Rig Fault Refusal
  | [], r => .next r
  | a :: rest, r =>
    match r.move a with
    | .next r' => Rig.run rest r'
    | .fault f => .fault f
    | .refused x => .refused x

end Sys2Proof.Machine
end

