-- ==== Sys2Proof/Config.lean ====
section
/-! DEFINITION. What a platform fixes and the spec leaves open: the two parameters of 92_eei_decisions.md D29
(93_implementation_defined.md U11). They are arguments of the model of a system (Machine/System.lean), never chosen here. -/

namespace Sys2Proof

/-- The open parameters of a system of cores. `numInstances` is R9's NumInstances, at least 1. `corePortBinding` is R40's
CorePortBinding: where the platform reaches each core's command port, named by a number; no rule reads it (log 11,
DESIGN CHOICE: a number stands for the place). -/
structure Config.Platform where
  numInstances : Nat
  numInstances_pos : 0 < numInstances
  corePortBinding : Fin numInstances → Nat

end Sys2Proof
end

