-- ==== Sys2Proof/Machine/System.lean ====
section
/-! DEFINITION. A system of independent cores: 00_scope.md rule R9, 10_state.md rule R36, 60_exceptions.md rule R111. The
platform's parameters are arguments (log 11). -/

namespace Sys2Proof.Machine

open Sys2Proof

/-- R9, R111: NumInstances cores, each with a state and a schedule (its own host) of its own. They share only the ROMs. -/
abbrev System (p : Config.Platform) : Type := Vector State p.numInstances

/-- R111: each core starts from its own reset. -/
def System.reset (p : Config.Platform) : System p := Vector.replicate p.numInstances State.reset

/-- One step of core k; the others do not move (R36). -/
def System.step (p : Config.Platform) (k : Fin p.numInstances) (x : System p) :
    Host.Outcome (System p) Fault Refusal :=
  match Sys2Proof.Machine.step x[k.val] with
  | .next t => .next (x.set k.val t)
  | .fault f => .fault f
  | .refused r => .refused r

end Sys2Proof.Machine
end

