-- ==== Sys2Proof/Safety.lean ====
section
/-! DEFINITION. What counts as a good state and a safe run: the invariants of 10_state.md rule R35, the answer of a step that
neither faults nor refuses (R38), and which infinite runs are fair (70_reset_and_hazards.md rule R120). -/

namespace Sys2Proof.Machine

open Sys2Proof

/-- R35 (b): while busy, HVALID = 1 and MMASK = 0. -/
abbrev State.InvBusy (s : State) : Prop := s.phase ≠ .idle → s.hvalid = true ∧ s.mmask = 0

/-- R19, R38: a word counted in MMASK holds a value. -/
abbrev State.InvMask (s : State) : Prop := ∀ i : Fin 16, s.mmask.getLsbD i.val = true → s.held.m[i.val] = true

/-- R38: LOAD comes only after every M[i] was written. -/
abbrev State.InvLoad (s : State) : Prop := s.phase = .load → ∀ i : Fin 16, s.held.m[i.val] = true

/-- R35 (c): PHASE = ROUND implies 0 <= j <= 63, and W[0..max(15, j-1)] and a..h hold values. -/
abbrev State.InvRound (s : State) : Prop :=
  s.phase = .round →
    s.held.j = true ∧ s.held.v = true ∧ s.j.toNat ≤ 63 ∧
      ∀ t : Fin 64, t.val ≤ 15 ∨ t.val < s.j.toNat → s.held.w[t.val] = true

/-- R35 (d), R38: PHASE = ACCUM implies j = 64, and a..h hold values. -/
abbrev State.InvAccum (s : State) : Prop :=
  s.phase = .accum → s.held.j = true ∧ s.j = 64 ∧ s.held.v = true

/-- R35 (b), (c), (d) with what R38 adds for M. Its (a) is the engine's definition (R79), its (e) holds by definition because
HVALID is H's mark, and its (f) is about a run (obligation BcntCountsAccumSteps). -/
abbrev State.Inv (s : State) : Prop :=
  s.InvBusy ∧ s.InvMask ∧ s.InvLoad ∧ s.InvRound ∧ s.InvAccum

/-- R26, R35 (f): the number of ACCUM steps since the last reset or accepted INIT, after the turn `t` in the state `s`, when it
was `n` before. -/
def accumsAfter (n : Nat) (t : Turn) (s : State) : Nat :=
  if t.reset then 0
  else match t.event with
    | .transaction c => if decode c = .ok .init ∧ s.phase = .idle then 0 else n
    | .engine => if s.phase = .accum then n + 1 else n

/-- That number after a list of turns. -/
def accumsAlong : List Turn → State → Nat → Nat
  | [], _, n => n
  | t :: rest, s, n =>
    match takeTurn t s with
    | .next s' => accumsAlong rest s' (accumsAfter n t s)
    | .fault _ => n
    | .refused _ => n

/-- What the core answers after the first n turns of an infinite sequence of turns. -/
def coreAlong (turns : Nat → Turn) (s : State) (n : Nat) : Result := runTurns ((List.range n).map turns) s

/-- R120: the engine is weakly fair along the run: if from some turn on it stays enabled (PHASE != IDLE, R79), it takes its step
at that turn or later. -/
def EngineFair (turns : Nat → Turn) (s : State) : Prop :=
  ∀ n, (∀ k, n ≤ k → ∃ t, coreAlong turns s k = .next t ∧ t.phase ≠ .idle) → ∃ k, n ≤ k ∧ turns k = engineTurn

/-- What a host and its core answer after the first n moves of an infinite sequence of moves. -/
def rigAlong (moves : Nat → Agent) (r : Rig) (n : Nat) : Host.Outcome Rig Fault Refusal :=
  Rig.run ((List.range n).map moves) r

/-- R120 for a host and its core: if from some move on the engine stays enabled, it moves then or later. -/
def RigEngineFair (moves : Nat → Agent) (r : Rig) : Prop :=
  ∀ n, (∀ k, n ≤ k → ∃ t, rigAlong moves r k = .next t ∧ t.core.phase ≠ .idle) → ∃ k, n ≤ k ∧ moves k = .engine

/-- The host goes on with its program: it moves again and again. R120 says that "a host following" R95 completes; a host that
stops following it does not. -/
def HostGoesOn (moves : Nat → Agent) : Prop := ∀ n, ∃ k, n ≤ k ∧ moves k = .host

/-- The step answers a next state: neither a fault nor a refusal. -/
def AnswersNext (r : Result) : Prop := ∃ t, r = .next t

/-- The next state, where there is one: for tests, which compare states. -/
def nextState? : Result → Option State
  | .next t => some t
  | .fault _ => none
  | .refused _ => none

/-- The fault, where there is one. -/
def fault? : Result → Option Fault
  | .next _ => none
  | .fault f => some f
  | .refused _ => none

end Sys2Proof.Machine
end

