-- ==== Sys2Proof/Certificates/Slice0/Obligations.lean ====
section
/-! DEFINITION. The statements for the provers, each from the numbered rules of spec/ that its docstring cites. "log n" is
notes/assumptions/n.md; a clause that rests on a log entry is the model's choice, not the spec's. Each effect is stated as the
whole next state, so that it is also the frame: every field not named is unchanged. -/

open Sys2Proof Sys2Proof.Machine

/-! ## Encoding -/

/-- R56 (its words written out bit by bit) and 95_test_vectors.md V8. -/
def Obligations.SpecWordsDecodeToTheirCommands : Prop :=
  ∀ d : Word,
    decode ⟨0b0000000000000000, d⟩ = .ok .nop ∧
    decode ⟨0b0001000000000000, d⟩ = .ok .init ∧
    decode ⟨0b0010000000000111, d⟩ = .ok (.wrm 7 d) ∧
    decode ⟨0b0011000000000000, d⟩ = .ok .compress ∧
    decode ⟨0b0100000000000111, d⟩ = .ok (.rdh 7) ∧
    decode ⟨0b0101000000000000, d⟩ = .ok .rdstat ∧
    decode ⟨0b0110000000000000, d⟩ = .ok .rdcnt ∧
    decode ⟨0b0000000000000001, d⟩ = .error .indexNotZero ∧
    decode ⟨0b0010000000010000, d⟩ = .error .reservedBits ∧
    decode ⟨0b0100000000001000, d⟩ = .error .hashIndexRange ∧
    decode ⟨0b0111000000000000, d⟩ = .error .reservedOpcode

/-- R56, R57: decoding an encoded well-formed instruction gives it back, whatever its operands. -/
def Obligations.DecodeOfEncodeIsTheInstruction : Prop :=
  ∀ i : Instr, i.wf = true → decode (encode i) = .ok i

/-- R56, R57: each legal word has one meaning: what decodes is well formed and encodes to the same word, and WRM keeps its data
operand unchanged (R55). -/
def Obligations.EncodeOfDecodeIsTheWord : Prop :=
  ∀ (c : Command) (i : Instr), decode c = .ok i →
    i.wf = true ∧ (encode i).cmd = c.cmd ∧ ∀ idx word, i = .wrm idx word → word = c.data

/-- R57: the pseudocode of the decoder, case by case on the fields; the pattern table of R56; and the 29 legal words, whose count
R57 marks as derived from R56: the spec's inference. -/
def Obligations.DecoderIsTheSpecsDecoder : Prop :=
  (∀ c : Command,
    let op := c.cmd.extractLsb' 12 4
    let rsv := c.cmd.extractLsb' 4 8
    let idx := c.cmd.extractLsb' 0 4
    (rsv ≠ 0 → (decode c).toOption = none) ∧
    (rsv = 0 → op = 0 → (decode c).toOption = if idx = 0 then some .nop else none) ∧
    (rsv = 0 → op = 1 → (decode c).toOption = if idx = 0 then some .init else none) ∧
    (rsv = 0 → op = 2 → (decode c).toOption = some (.wrm idx c.data)) ∧
    (rsv = 0 → op = 3 → (decode c).toOption = if idx = 0 then some .compress else none) ∧
    (rsv = 0 → op = 4 → (decode c).toOption = if idx.getLsbD 3 = false then some (.rdh idx) else none) ∧
    (rsv = 0 → op = 5 → (decode c).toOption = if idx = 0 then some .rdstat else none) ∧
    (rsv = 0 → op = 6 → (decode c).toOption = if idx = 0 then some .rdcnt else none) ∧
    (7 ≤ op.toNat → (decode c).toOption = none)) ∧
  (∀ (c : Command) (i : Instr), decode c = .ok i →
    ∃ r, opcodeTable.filter (·.hit c.cmd) = [r] ∧ r.mnemonic = i.mnemonic) ∧
  (∀ (c : Command) (e : DecodeError), decode c = .error e → opcodeTable.filter (·.hit c.cmd) = []) ∧
  (∀ c : Command, (decode c).toOption ≠ none ↔
    c.cmd ∈ ([0x0000, 0x1000,
      0x2000, 0x2001, 0x2002, 0x2003, 0x2004, 0x2005, 0x2006, 0x2007,
      0x2008, 0x2009, 0x200A, 0x200B, 0x200C, 0x200D, 0x200E, 0x200F,
      0x3000, 0x4000, 0x4001, 0x4002, 0x4003, 0x4004, 0x4005, 0x4006, 0x4007,
      0x5000, 0x6000] : List (BitVec 16)))

/-- R58: what decodes to ILLEGAL, and what it does: ERR[0] and the result 0, whatever the state. -/
def Obligations.IllegalWordsAreRejectedWithErrIllegal : Prop :=
  (∀ c : Command,
    let op := c.cmd.extractLsb' 12 4
    let rsv := c.cmd.extractLsb' 4 8
    let idx := c.cmd.extractLsb' 0 4
    (7 ≤ op.toNat ∨ rsv ≠ 0 ∨
      (idx ≠ 0 ∧ (op = 0 ∨ op = 1 ∨ op = 3 ∨ op = 5 ∨ op = 6)) ∨
      (8 ≤ idx.toNat ∧ op = 4)) ↔ ∃ e, decode c = .error e) ∧
  (∀ (c : Command) (e : DecodeError) (s : State), decode c = .error e →
    transact c s = .next { s with err := s.err ||| 0b0001, result := 0 })

/-! ## The step -/

/-- R48, R104, R114: the step takes the first turn of the schedule: a transaction runs the decoded command, an ILLEGAL word is
rejected, an engine turn is the engine's step, reset wins over what it coincides with. With nothing scheduled the engine has the
turn, and a reset leaves the schedule (log 1). The state after a reset is State.reset whole, so with zeros under H, M, W, a..h and
j (log 2) and the port's result 0 (log 4). These are the model's choices. -/
def Obligations.StepRunsTheScheduledTurn : Prop :=
  (∀ (s : State) (c : Command) (rest : List Turn) (i : Instr),
    s.inputs = ⟨.transaction c, false⟩ :: rest → decode c = .ok i → step s = exec i { s with inputs := rest }) ∧
  (∀ (s : State) (c : Command) (rest : List Turn) (e : DecodeError),
    s.inputs = ⟨.transaction c, false⟩ :: rest → decode c = .error e →
      step s = .next { s with inputs := rest, err := s.err ||| 0b0001, result := 0 }) ∧
  (∀ (s : State) (rest : List Turn),
    s.inputs = ⟨.engine, false⟩ :: rest → step s = engineStep { s with inputs := rest }) ∧
  (∀ (s : State) (e : Event) (rest : List Turn),
    s.inputs = ⟨e, true⟩ :: rest → step s = .next { State.reset with inputs := rest }) ∧
  (∀ s : State, s.inputs = [] → step s = engineStep s)

/-! ## The commands -/

/-- R75. -/
def Obligations.NopCompletesInEveryState : Prop :=
  (∀ s : State, exec .nop s = .next { s with result := 0 }) ∧
  (∀ (d : Word) (s : State), transact ⟨0x0000, d⟩ s = .next { s with result := 0 })

/-- R76. -/
def Obligations.InitBeginsAHashComputation : Prop :=
  (∀ d : Word, decode ⟨0x1000, d⟩ = .ok .init) ∧
  (∀ s : State, s.phase = .idle →
    exec .init s = .next { s with
      h := #v[0x6a09e667, 0xbb67ae85, 0x3c6ef372, 0xa54ff53a, 0x510e527f, 0x9b05688c, 0x1f83d9ab, 0x5be0cd19]
      hvalid := true
      mmask := 0x0000
      bcnt := 0x00000000
      err := 0b0000
      result := 0x00000000 }) ∧
  (∀ s : State, s.phase ≠ .idle → exec .init s = .next { s with err := s.err ||| 0b0010, result := 0 })

/-- R77: for every index and every word; M[i] and MMASK[i] word by word. The `held` mark is log 3. -/
def Obligations.WrmStoresOneWord : Prop :=
  (∀ (idx : BitVec 4) (d : Word), decode ⟨0x2000 ||| idx.setWidth 16, d⟩ = .ok (.wrm idx d)) ∧
  (∀ (idx : BitVec 4) (d : Word) (s : State), s.phase = .idle →
    ∃ t, exec (.wrm idx d) s = .next t ∧
      (∀ k : Fin 16, t.m[k.val] = if k.val = idx.toNat then d else s.m[k.val]) ∧
      (∀ k : Fin 16, t.mmask.getLsbD k.val = if k.val = idx.toNat then true else s.mmask.getLsbD k.val) ∧
      (∀ k : Fin 16, t.held.m[k.val] = if k.val = idx.toNat then true else s.held.m[k.val]) ∧
      t = { s with m := t.m, mmask := t.mmask, held := { s.held with m := t.held.m }, result := 0 }) ∧
  (∀ (idx : BitVec 4) (d : Word) (s : State), s.phase ≠ .idle →
    exec (.wrm idx d) s = .next { s with err := s.err ||| 0b0010, result := 0 })

/-- R78, with its checks in their order. -/
def Obligations.CompressStartsABlockCompression : Prop :=
  (∀ d : Word, decode ⟨0x3000, d⟩ = .ok .compress) ∧
  (∀ s : State, s.phase = .idle → s.hvalid = true → s.mmask = 0xFFFF →
    exec .compress s = .next { s with mmask := 0x0000, phase := .load, result := 0 }) ∧
  (∀ s : State, s.phase ≠ .idle → exec .compress s = .next { s with err := s.err ||| 0b0010, result := 0 }) ∧
  (∀ s : State, s.phase = .idle → s.hvalid = false →
    exec .compress s = .next { s with err := s.err ||| 0b0100, result := 0 }) ∧
  (∀ s : State, s.phase = .idle → s.hvalid = true → s.mmask ≠ 0xFFFF →
    exec .compress s = .next { s with err := s.err ||| 0b1000, result := 0 })

/-- R87. The last clause is R58 (d) for an operand that no legal word carries (log 10). -/
def Obligations.RdhReturnsOneHashWord : Prop :=
  (∀ (i : Fin 8) (d : Word), decode ⟨BitVec.ofNat 16 (0x4000 + i.val), d⟩ = .ok (.rdh (BitVec.ofNat 4 i.val))) ∧
  (∀ (i : Fin 8) (s : State), s.phase = .idle → s.hvalid = true →
    exec (.rdh (BitVec.ofNat 4 i.val)) s = .next { s with result := s.h[i.val] }) ∧
  (∀ (i : Fin 8) (s : State), s.phase ≠ .idle →
    exec (.rdh (BitVec.ofNat 4 i.val)) s = .next { s with err := s.err ||| 0b0010, result := 0 }) ∧
  (∀ (i : Fin 8) (s : State), s.phase = .idle → s.hvalid = false →
    exec (.rdh (BitVec.ofNat 4 i.val)) s = .next { s with err := s.err ||| 0b0100, result := 0 }) ∧
  (∀ (idx : BitVec 4) (s : State), 8 ≤ idx.toNat →
    exec (.rdh idx) s = .next { s with err := s.err ||| 0b0001, result := 0 })

/-- R88: accepted in every state; the word is assembled as its pseudocode says; ERR is not cleared. -/
def Obligations.RdstatReturnsTheStatusWord : Prop :=
  (∀ d : Word, decode ⟨0x5000, d⟩ = .ok .rdstat) ∧
  (∀ s : State, exec .rdstat s = .next { s with
    result := s.mmask ++ 0b0000#4 ++ s.err ++ 0b00000#5 ++
      BitVec.ofBool (decide (s.mmask = 0xFFFF)) ++ BitVec.ofBool s.hvalid ++ BitVec.ofBool (decide (s.phase ≠ .idle)) })

/-- R30: the fields of the word RDSTAT returns at their places; the reserved bits read 0; nothing but the result changes. -/
def Obligations.StatusFieldsStandWhereTheSpecPutsThem : Prop :=
  ∀ s : State, ∃ w : Word,
    exec .rdstat s = .next { s with result := w } ∧
    (w.getLsbD 0 = true ↔ s.phase ≠ .idle) ∧
    w.getLsbD 1 = s.hvalid ∧
    (w.getLsbD 2 = true ↔ s.mmask = 0xFFFF) ∧
    w.extractLsb' 3 5 = 0 ∧
    w.extractLsb' 8 4 = s.err ∧
    w.extractLsb' 12 4 = 0 ∧
    w.extractLsb' 16 16 = s.mmask

/-- R89. -/
def Obligations.RdcntReturnsTheBlockCount : Prop :=
  (∀ d : Word, decode ⟨0x6000, d⟩ = .ok .rdcnt) ∧
  (∀ s : State, s.phase = .idle → exec .rdcnt s = .next { s with result := s.bcnt }) ∧
  (∀ s : State, s.phase ≠ .idle → exec .rdcnt s = .next { s with err := s.err ||| 0b0010, result := 0 })

/-- R46: repeating INIT leaves the same state; COMPRESS is not idempotent: the second one is rejected, with ErrBusy while busy
and with ErrIncomplete after. -/
def Obligations.InitIsIdempotentAndCompressIsNot : Prop :=
  (∀ s t : State, s.phase = .idle → exec .init s = .next t → exec .init t = .next t) ∧
  (∀ s t : State, s.phase = .idle → s.hvalid = true → s.mmask = 0xFFFF → exec .compress s = .next t →
    exec .compress t = .next { t with err := t.err ||| 0b0010 } ∧
    ∀ u : State, u.phase = .idle → u.hvalid = t.hvalid → u.mmask = t.mmask →
      exec .compress u = .next { u with err := u.err ||| 0b1000, result := 0 })

/-! ## Rejections and whole-machine rules -/

/-- R101: the checks of every command word in the order ILLEGAL, BUSY, NOINIT, INCOMPLETE: the first that fails decides, with
its one ERR bit; when none fails the command is performed and sets no ERR bit. -/
def Obligations.ChecksAreMadeInTheSpecsOrder : Prop :=
  (∀ (c : Command) (s : State) (e : DecodeError), decode c = .error e →
    transact c s = .next { s with err := s.err ||| 0b0001, result := 0 }) ∧
  (∀ (c : Command) (s : State) (i : Instr), decode c = .ok i → i.wf = true ∧ transact c s = exec i s) ∧
  ∀ (i : Instr) (s : State), i.wf = true →
    (s.phase ≠ .idle → i ≠ .nop → i ≠ .rdstat →
      exec i s = .next { s with err := s.err ||| 0b0010, result := 0 }) ∧
    (s.phase = .idle → s.hvalid = false → (i = .compress ∨ ∃ idx, i = .rdh idx) →
      exec i s = .next { s with err := s.err ||| 0b0100, result := 0 }) ∧
    (s.phase = .idle → s.hvalid = true → s.mmask ≠ 0xFFFF → i = .compress →
      exec i s = .next { s with err := s.err ||| 0b1000, result := 0 }) ∧
    ((s.phase = .idle ∨ i = .nop ∨ i = .rdstat) →
      (s.hvalid = true ∨ (i ≠ .compress ∧ ∀ idx, i ≠ .rdh idx)) →
      (s.mmask = 0xFFFF ∨ i ≠ .compress) →
      ∃ t, exec i s = .next t ∧ t.err = if i = .init then 0 else s.err)

/-- R25, R100, R102, R106: whatever turn is taken, reset and an accepted INIT clear ERR, a rejection sets one bit, and every
other turn leaves ERR as it is; and every rejected transaction, cause by cause and whatever ERR holds already, sets the bit of
its cause, returns 0 and changes nothing else. That an engine turn while idle changes nothing is log 5. -/
def Obligations.ErrBitsAreStickyAndRejectionsArePrecise : Prop :=
  ∀ (x : Turn) (s t : State), takeTurn x s = .next t →
    (x.reset = true → t.err = 0) ∧
    (x.reset = false →
      (t.err = s.err) ∨
      (t.err = 0 ∧ s.phase = .idle ∧ ∃ c, x.event = .transaction c ∧ decode c = .ok .init) ∨
      (∃ k : Fin 4, ∃ c, x.event = .transaction c ∧
        t = { s with err := s.err ||| (1#4 <<< k.val), result := 0 })) ∧
    (∀ c, x.reset = false → x.event = .transaction c →
      (∀ e, decode c = .error e → t = { s with err := s.err ||| 0b0001, result := 0 }) ∧
      (∀ i, decode c = .ok i → s.phase ≠ .idle → i ≠ .nop → i ≠ .rdstat →
        t = { s with err := s.err ||| 0b0010, result := 0 }) ∧
      (∀ i, decode c = .ok i → s.phase = .idle → s.hvalid = false → (i = .compress ∨ ∃ idx, i = .rdh idx) →
        t = { s with err := s.err ||| 0b0100, result := 0 }) ∧
      (decode c = .ok .compress → s.phase = .idle → s.hvalid = true → s.mmask ≠ 0xFFFF →
        t = { s with err := s.err ||| 0b1000, result := 0 }))

/-- R15, R16: only reset, an accepted INIT (which writes IV and sets HVALID) and the ACCUM step touch H or HVALID.
That an engine turn while idle changes nothing is log 5. -/
def Obligations.HashStateHasTwoWriters : Prop :=
  ∀ (x : Turn) (s t : State), x.reset = false → takeTurn x s = .next t →
    (t.hvalid ≠ s.hvalid →
      t.hvalid = true ∧ s.phase = .idle ∧ ∃ c, x.event = .transaction c ∧ decode c = .ok .init) ∧
    (t.h ≠ s.h →
      (t.h = romIV ∧ t.hvalid = true ∧ s.phase = .idle ∧ ∃ c, x.event = .transaction c ∧ decode c = .ok .init) ∨
      (x.event = .engine ∧ s.phase = .accum))

/-- R18, R19: how a word of M and a bit of MMASK change, for every turn but reset: only an accepted WRM of that index writes
M[i] and sets its bit, and only an accepted INIT or COMPRESS clears bits, all of them. That an engine turn while idle changes nothing is
log 5. -/
def Obligations.BlockBufferAndMaskTransitions : Prop :=
  ∀ (x : Turn) (s t : State) (k : Fin 16), x.reset = false → takeTurn x s = .next t →
    (t.m[k.val] ≠ s.m[k.val] → t.mmask.getLsbD k.val = true) ∧
    (t.m[k.val] ≠ s.m[k.val] ∨ (t.mmask.getLsbD k.val = true ∧ s.mmask.getLsbD k.val = false) →
      s.phase = .idle ∧ ∃ c d, x.event = .transaction c ∧ decode c = .ok (.wrm (BitVec.ofNat 4 k.val) d) ∧ t.m[k.val] = d) ∧
    (t.mmask.getLsbD k.val = false ∧ s.mmask.getLsbD k.val = true →
      t.mmask = 0 ∧ s.phase = .idle ∧
        ∃ c, x.event = .transaction c ∧ (decode c = .ok .init ∨ decode c = .ok .compress))

/-- R26, R109: how BCNT changes, for every turn. That an engine turn while idle leaves it is log 5. -/
def Obligations.BlockCounterTransitions : Prop :=
  ∀ (x : Turn) (s t : State), takeTurn x s = .next t →
    (x.reset = true → t.bcnt = 0) ∧
    (x.reset = false → x.event = .engine → s.phase = .accum → t.bcnt = s.bcnt + 1) ∧
    (x.reset = false → x.event = .engine → s.phase ≠ .accum → t.bcnt = s.bcnt) ∧
    (∀ c, x.reset = false → x.event = .transaction c → decode c = .ok .init → s.phase = .idle → t.bcnt = 0) ∧
    (∀ c, x.reset = false → x.event = .transaction c → (decode c ≠ .ok .init ∨ s.phase ≠ .idle) → t.bcnt = s.bcnt)

/-- R22, R23, R80, R83, R85: the transitions of PHASE, and of j with it, for every turn; no other transition exists. That ACCUM
keeps j is log 15, that an idle engine's turn changes nothing is log 5: the model's choices. -/
def Obligations.SequencerTransitions : Prop :=
  ∀ (x : Turn) (s t : State), takeTurn x s = .next t →
    (x.reset = true → t.phase = .idle) ∧
    (x.reset = false →
    (∃ c, x.event = .transaction c ∧ decode c = .ok .compress ∧
      s.phase = .idle ∧ s.hvalid = true ∧ s.mmask = 0xFFFF ∧ t.phase = .load ∧ t.j = s.j) ∨
    (x.event = .engine ∧ s.phase = .load ∧ t.phase = .round ∧ t.j = 0) ∨
    (x.event = .engine ∧ s.phase = .round ∧ s.j.toNat < 63 ∧ t.phase = .round ∧ t.j.toNat = s.j.toNat + 1) ∨
    (x.event = .engine ∧ s.phase = .round ∧ s.j.toNat = 63 ∧ t.phase = .accum ∧ t.j.toNat = 64) ∨
    (x.event = .engine ∧ s.phase = .accum ∧ t.phase = .idle ∧ t.j = s.j) ∨
    (t.phase = s.phase ∧ t.j = s.j ∧ (x.event = .engine → s.phase = .idle)))

/-- R33, 92_eei_decisions.md D19: no command returns M, W, a..h or j: two states that differ in them only
(and in the marks of log 3) give the same result and the same status word after any transaction. -/
def Obligations.HiddenStateIsNeverReturned : Prop :=
  ∀ (c : Command) (s t : State) (m : Vector Word 16) (w : Vector Word 64) (v : Working) (j : BitVec 7) (held : Held),
    transact c s = .next t →
      ∃ t', transact c { s with m := m, w := w, v := v, j := j, held := held } = .next t' ∧
        t'.result = t.result ∧ t'.status = t.status

/-- R100, R116: in the busy window a transaction cannot disturb the block compression in flight: whatever word it is, it changes
ERR and the port's result at most, and only NOP and RDSTAT leave ERR unchanged. -/
def Obligations.BusyWindowTransactionsDisturbNothing : Prop :=
  ∀ (c : Command) (s : State), s.phase ≠ .idle →
    ∃ t, transact c s = .next t ∧ t = { s with err := t.err, result := t.result } ∧
      (decode c ≠ .ok .nop → decode c ≠ .ok .rdstat →
        t.result = 0 ∧ (t.err = s.err ||| 0b0001 ∨ t.err = s.err ||| 0b0010))

/-! ## Reset -/

/-- R34, R114, R104: a turn with reset gives every register its value after reset, whatever it coincides with and whatever the
state: PHASE, HVALID, MMASK, ERR and BCNT as the spec says, and H, M, W, a..h and j hold no value (HVALID = 0 and no mark set,
log 3). RDSTAT then reads 0, and RDH is rejected with ErrNoInit. The schedule goes on (log 1). -/
def Obligations.ResetGivesTheSpecsResetState : Prop :=
  ∀ (e : Event) (s : State),
    ∃ t, takeTurn ⟨e, true⟩ s = .next t ∧
      t.phase = .idle ∧ t.hvalid = false ∧ t.mmask = 0x0000 ∧ t.err = 0b0000 ∧ t.bcnt = 0x00000000 ∧
      (∀ k : Fin 16, t.held.m[k.val] = false) ∧ (∀ k : Fin 64, t.held.w[k.val] = false) ∧
      t.held.v = false ∧ t.held.j = false ∧ t.inputs = s.inputs ∧
      exec .rdstat t = .next { t with result := 0x00000000 } ∧
      (∀ i : Fin 8, exec (.rdh (BitVec.ofNat 4 i.val)) t = .next { t with err := 0b0100, result := 0 })

/-- R79 to R85 with log 6: the engine's turn completes in every state but one kind, ROUND with a counter that is no round number.
For PHASE = IDLE this is the model's choice: R79 gives the engine no enabled step there, and the model's turn changes nothing (log 5).
So no read of a register that nothing has written since reset stops the machine: it gives what the register holds (log 2, log 3,
the model's choice where R34 gives no value). -/
def Obligations.EngineStopsOnlyBeyondRound63 : Prop :=
  ∀ s : State,
    (s.phase = .round → 64 ≤ s.j.toNat → engineStep s = .fault .noSuchRound) ∧
    ((s.phase ≠ .round ∨ s.j.toNat < 64) → ∃ t, engineStep s = .next t)

/-! ## The engine -/

/-- R80, in every state of LOAD. The `held` marks are log 3; that the port's result stays is log 4: the model's choices. -/
def Obligations.LoadStepLoadsScheduleAndWorkingVariables : Prop :=
  ∀ s : State, s.phase = .load →
    ∃ t, engineStep s = .next t ∧
      (∀ k : Fin 64, t.w[k.val] = if h : k.val < 16 then s.m[k.val] else s.w[k.val]) ∧
      t.v = ⟨s.h[0], s.h[1], s.h[2], s.h[3], s.h[4], s.h[5], s.h[6], s.h[7]⟩ ∧
      (∀ k : Fin 64, t.held.w[k.val] = if k.val < 16 then true else s.held.w[k.val]) ∧
      t = { s with w := t.w, v := t.v, j := 0, phase := .round, held := ⟨s.held.m, t.held.w, true, true⟩ }

/-- R81, R82, R83, R84: the ROUND step, in every state of ROUND with j in 0..63, on the value j at entry: the expander for j >= 16, the round on the W[j] just written,
the advance. The `held` marks are log 3; that the port's result stays is log 4: the model's choices. -/
def Obligations.RoundStepExpandsMixesAndAdvances : Prop :=
  ∀ (s : State) (j : Fin 64), s.phase = .round → s.j.toNat = j.val →
    ∃ t, engineStep s = .next t ∧
      let wj : Word :=
        if 16 ≤ j.val then
          smallSigma1 s.w[j.val - 2] + s.w[j.val - 7] + smallSigma0 s.w[j.val - 15] + s.w[j.val - 16]
        else s.w[j.val]
      let t1 : Word := s.v.h + bigSigma1 s.v.e + choose s.v.e s.v.f s.v.g + romK j + wj
      let t2 : Word := bigSigma0 s.v.a + majority s.v.a s.v.b s.v.c
      (∀ k : Fin 64, t.w[k.val] = if k = j then wj else s.w[k.val]) ∧
      t.v = ⟨t1 + t2, s.v.a, s.v.b, s.v.c, s.v.d + t1, s.v.e, s.v.f, s.v.g⟩ ∧
      t.j.toNat = j.val + 1 ∧
      t.phase = (if j.val = 63 then .accum else .round) ∧
      (∀ k : Fin 64, t.held.w[k.val] = if k = j ∧ 16 ≤ j.val then true else s.held.w[k.val]) ∧
      t = { s with w := t.w, v := t.v, j := t.j, phase := t.phase, held := ⟨s.held.m, t.held.w, true, true⟩ }

/-- R85, R49: H, BCNT and PHASE in one transition; every sum wraps. The rest is the frame: that W, a..h and j keep their values
is log 15 (R85 says it of W and a..h), that j is not tested is log 7, that the port's result stays is log 4: the model's choices. -/
def Obligations.AccumStepAddsIntoTheHashState : Prop :=
  ∀ s : State, s.phase = .accum →
    engineStep s = .next { s with
      h := #v[s.h[0] + s.v.a, s.h[1] + s.v.b, s.h[2] + s.v.c, s.h[3] + s.v.d,
              s.h[4] + s.v.e, s.h[5] + s.v.f, s.h[6] + s.v.g, s.h[7] + s.v.h]
      bcnt := s.bcnt + 1
      phase := .idle }

/-- R79: from LOAD (where an accepted COMPRESS leaves the engine) exactly 66 engine steps lead back to IDLE, and none fewer. -/
def Obligations.SixtySixEngineStepsLeadBackToIdle : Prop :=
  ∀ s : State, s.Inv → s.phase = .load →
    (∃ t, runTurns (List.replicate 66 engineTurn) s = .next t ∧ t.phase = .idle) ∧
    ∀ n, n < 66 → ∃ t, runTurns (List.replicate n engineTurn) s = .next t ∧ t.phase ≠ .idle

/-- R120: from every state of the invariant the machine, left to itself, is idle after at most 66 steps (that an empty schedule
gives the engine the turn is log 1). -/
def Obligations.BusyEngineReachesIdle : Prop :=
  ∀ s : State, s.Inv → s.inputs = [] →
    ∃ k, k ≤ 66 ∧ ∃ t : State, Host.Core.run Sys2Proof.core k s = .next t ∧ t.phase = .idle ∧ t.Inv

/-- R120: along every infinite sequence of turns in which the engine is weakly fair, whatever the host and the platform do, the
core is idle after finitely many turns. From an accepted COMPRESS that is the end of its block compression, or a reset.
What a fair run is, is log 12; that an engine turn while idle changes nothing is log 5. -/
def Obligations.FairEngineReachesIdle : Prop :=
  ∀ (turns : Nat → Turn) (s : State), s.Inv → EngineFair turns s →
    ∃ n t, coreAlong turns s n = .next t ∧ t.phase = .idle ∧ t.Inv

/-- R74: the sequence of engine steps does not depend on data: two states with the same PHASE and j, and nothing else in common,
go through the same PHASE and j, and complete alike, for any number of engine turns. Past the end of a block compression this
rests on log 5 (an engine turn while idle completes and changes nothing) and log 15 (ACCUM keeps j): the model's choices. -/
def Obligations.EngineControlIsIndependentOfData : Prop :=
  ∀ (n : Nat) (s s' : State), s.Inv → s'.Inv → s.phase = s'.phase → s.j = s'.j →
    ∃ t t', runTurns (List.replicate n engineTurn) s = .next t ∧
      runTurns (List.replicate n engineTurn) s' = .next t' ∧ t.phase = t'.phase ∧ t.j = t'.j

/-- R86 (a), (b): an accepted COMPRESS and its 66 engine steps, with any host transactions in between and no reset, leave
H = Compress(H0, M0) and BCNT = BCNT0 + 1, where Compress is written as the source's §4.2 (the whole schedule first). The
interleaving does not show in H, M, MMASK, HVALID, BCNT or PHASE. -/
def Obligations.CompressionEqualsTheBlockFunction : Prop :=
  ∀ (s : State) (between : List Turn),
    s.Inv → s.phase = .idle → s.hvalid = true → s.mmask = 0xFFFF →
    (∀ x ∈ between, x.reset = false) → between.countP (fun x => decide (x.event = .engine)) = 65 →
    ∃ t, runTurns (hostTurn ⟨0x3000, 0⟩ :: (between ++ [engineTurn])) s = .next t ∧
      t.h = compress s.h s.m ∧ t.bcnt = s.bcnt + 1 ∧ t.phase = .idle ∧
      t.m = s.m ∧ t.hvalid = true ∧ t.mmask = 0

/-- R81 (corner case), 92_eei_decisions.md D23: a 16-word window gives the same schedule words as the 64-word array. -/
def Obligations.SixteenWordWindowGivesTheSameSchedule : Prop :=
  ∀ (block : Vector Word 16) (n : Fin 49) (k : Fin 16),
    (windowAfter block n.val)[k.val] = (messageSchedule block)[n.val + k.val]

/-! ## Invariants -/

/-- R35 at reset. The marks the invariant speaks of are log 3. -/
def Obligations.ResetMeetsTheInvariant : Prop := State.reset.Inv

/-- R35: every step keeps the invariant, whatever turn the schedule holds. The marks the invariant speaks of are log 3; the schedule is
log 1, and that an engine turn while idle changes nothing is log 5. -/
def Obligations.StepKeepsTheInvariant : Prop :=
  ∀ s t : State, s.Inv → step s = .next t → t.Inv

/-- R38, R35 (c): under the invariant the step always answers a next state: ROUND always has a round number. The marks the invariant speaks of are log 3; that an engine turn while idle completes is log 5. -/
def Obligations.StepNeverFaultsUnderTheInvariant : Prop :=
  ∀ s : State, s.Inv → ∃ t, step s = .next t

/-- R38: along every run from a state of the invariant (from reset, ResetMeetsTheInvariant), what the engine's next step reads
holds a value: LOAD reads M and H, ROUND j, a..h and the words of the recurrence or, for j < 16, W[j], ACCUM H and a..h. (RDH and
COMPRESS are gated by HVALID: ChecksAreMadeInTheSpecsOrder.) The marks are log 3. -/
def Obligations.NoStepReadsARegisterWithoutValue : Prop :=
  ∀ (turns : List Turn) (s t : State), s.Inv → runTurns turns s = .next t →
    (t.phase = .load → t.hvalid = true ∧ ∀ k : Fin 16, t.held.m[k.val] = true) ∧
    (t.phase = .round → t.held.j = true ∧ t.held.v = true ∧ ∃ j : Fin 64, t.j.toNat = j.val ∧
      (16 ≤ j.val → t.held.w[j.val - 2] = true ∧ t.held.w[j.val - 7] = true ∧
        t.held.w[j.val - 15] = true ∧ t.held.w[j.val - 16] = true) ∧
      (j.val < 16 → t.held.w[j.val] = true)) ∧
    (t.phase = .accum → t.hvalid = true ∧ t.held.v = true)

/-- R35 (f): along every run, BCNT is the number of ACCUM steps since the last reset or accepted INIT, modulo 2^32.
That an engine turn while idle changes nothing is log 5. -/
def Obligations.BcntCountsAccumSteps : Prop :=
  ∀ (turns : List Turn) (s t : State) (n : Nat), s.bcnt = BitVec.ofNat 32 n → runTurns turns s = .next t →
    t.bcnt = BitVec.ofNat 32 (accumsAlong turns s n)

/-! ## The datapath and the ROMs -/

/-- R64, R65, R66: addition, rotation and shift as arithmetic and bit by bit. That add32 is commutative and associative is what
R64 marks as derived from modular arithmetic; the bits of rotr are R65's definition in words, from which R65 derives its
pseudocode. -/
def Obligations.AddRotateAndShiftAreTheSpecs : Prop :=
  (∀ x y : Word, (add32 x y).toNat = (x.toNat + y.toNat) % 2 ^ 32 ∧ add32 x y = add32 y x) ∧
  (∀ x y z : Word, add32 (add32 x y) z = add32 x (add32 y z)) ∧
  (∀ (x : Word) (n i : Fin 32), (rotr x n.val).getLsbD i.val = x.getLsbD ((i.val + n.val) % 32)) ∧
  (∀ (x : Word) (n : Fin 32), (shr x n.val).toNat = x.toNat / 2 ^ n.val)

/-- R67, R68, R69, R70: the four sigma functions, whose formulas on words are read bit by bit with R65 and R66. -/
def Obligations.SigmaFunctionsBitByBit : Prop :=
  ∀ (x : Word) (i : Fin 32),
    let r := fun n => x.getLsbD ((i.val + n) % 32)
    (smallSigma0 x).getLsbD i.val = (r 7 ^^ r 18 ^^ x.getLsbD (i.val + 3)) ∧
    (smallSigma1 x).getLsbD i.val = (r 17 ^^ r 19 ^^ x.getLsbD (i.val + 10)) ∧
    (bigSigma0 x).getLsbD i.val = (r 2 ^^ r 13 ^^ r 22) ∧
    (bigSigma1 x).getLsbD i.val = (r 6 ^^ r 11 ^^ r 25)

/-- R71, R72: each bit of Ch is y's or z's as x's bit says; each bit of Maj is the majority; and their corner cases. Two of these
are marked derived in the spec: that the outer xor of Ch may be an or (R71), and that Maj is symmetric (R72). -/
def Obligations.ChooseAndMajorityBitByBit : Prop :=
  (∀ (x y z : Word) (i : Fin 32),
    (choose x y z).getLsbD i.val = (if x.getLsbD i.val = true then y.getLsbD i.val else z.getLsbD i.val) ∧
    ((majority x y z).getLsbD i.val = true ↔
      2 ≤ (x.getLsbD i.val).toNat + (y.getLsbD i.val).toNat + (z.getLsbD i.val).toNat)) ∧
  (∀ x y z : Word, choose 0xFFFFFFFF y z = y ∧ choose 0 y z = z ∧ choose x y y = y ∧
    choose x y z = (x &&& y) ||| (~~~x &&& z)) ∧
  (∀ x y z : Word, majority x x z = x ∧ majority 0xFFFFFFFF 0 z = z ∧
    majority x y z = majority y x z ∧ majority x y z = majority x z y)

/-- R73: K[j] = floor(cbrt(p_j * 2^96)) mod 2^32 for the first 64 primes p_j. R73 marks the values as derived from the source's
definition, and taking them as normative as its own decision. -/
def Obligations.RoundConstantsAreTheCubeRoots : Prop :=
  let primes : List Nat :=
    [2, 3, 5, 7, 11, 13, 17, 19, 23, 29, 31, 37, 41, 43, 47, 53, 59, 61, 67, 71, 73, 79, 83, 89, 97, 101, 103, 107, 109, 113,
     127, 131, 137, 139, 149, 151, 157, 163, 167, 173, 179, 181, 191, 193, 197, 199, 211, 223, 227, 229, 233, 239, 241, 251,
     257, 263, 269, 271, 277, 281, 283, 293, 307, 311]
  primes.length = 64 ∧ primes.Pairwise (· < ·) ∧ (∀ n, n < 312 → (n ∈ primes ↔ n.Prime)) ∧
  ∀ j : Fin 64, ∃ r : Nat, r ^ 3 ≤ primes.getD j.val 0 * 2 ^ 96 ∧ primes.getD j.val 0 * 2 ^ 96 < (r + 1) ^ 3 ∧
    romK j = BitVec.ofNat 32 r

/-- R17: the list of IV, which equals floor(sqrt(p * 2^64)) mod 2^32 for the first 8 primes. -/
def Obligations.InitialHashValueIsTheSquareRoots : Prop :=
  romIV = #v[0x6a09e667, 0xbb67ae85, 0x3c6ef372, 0xa54ff53a, 0x510e527f, 0x9b05688c, 0x1f83d9ab, 0x5be0cd19] ∧
  ∀ i : Fin 8, ∃ r : Nat,
    let p := ([2, 3, 5, 7, 11, 13, 17, 19] : List Nat).getD i.val 0
    r ^ 2 ≤ p * 2 ^ 64 ∧ p * 2 ^ 64 < (r + 1) ^ 2 ∧ romIV[i.val] = BitVec.ofNat 32 r

/-- 95_test_vectors.md V6 and E2: known answers of the block function. -/
def Obligations.BlockFunctionKnownAnswers : Prop :=
  compress romIV #v[0x61626380, 0, 0, 0, 0, 0, 0, 0, 0, 0, 0, 0, 0, 0, 0, 0x00000018] =
    #v[0xba7816bf, 0x8f01cfea, 0x414140de, 0x5dae2223, 0xb00361a3, 0x96177a9c, 0xb410ff61, 0xf20015ad] ∧
  compress romIV (Vector.replicate 16 0) =
    #v[0xda5698be, 0x17b9b469, 0x62335799, 0x779fbeca, 0x8ce5d491, 0xc0d26243, 0xbafef9ea, 0x1837a9d8]

/-! ## Several cores -/

/-- R36, R9, R111: a step of one core leaves every other core as it is, and steps of two cores can be taken in either order.
The number of cores is log 11. -/
def Obligations.CoresShareNoMutableState : Prop :=
  ∀ (p : Config.Platform) (x : System p) (k l : Fin p.numInstances), k ≠ l →
    (∀ y, System.step p k x = .next y → y[l.val] = x[l.val] ∧ step x[k.val] = .next y[k.val]) ∧
    (∀ y z, System.step p k x = .next y → System.step p l y = .next z →
      ∃ y', System.step p l x = .next y' ∧ System.step p k y' = .next z)

/-! ## The host's side -/

/-- R63, R77: the sixteen WRM of a block in any order give the same state as WRBLK's index order, with M the block and MMASK
full. The marks, equal too, are log 3. -/
def Obligations.BlockWordsInAnyOrderGiveTheSameState : Prop :=
  ∀ (s : State) (ws : Vector Word 16) (order : List (Fin 16)), s.phase = .idle → order.Perm (List.finRange 16) →
    ∃ t, runTurns (order.map fun i => hostTurn (encode (.wrm (BitVec.ofNat 4 i.val) ws[i.val]))) s = .next t ∧
      runTurns ((wrblk ws).map fun op => hostTurn op.command) s = .next t ∧
      t.m = ws ∧ t.mmask = 0xFFFF

/-- R62: lines and their encodings; an index out of range is refused. -/
def Obligations.AssemblerLinesEncodeAsTheSpecSays : Prop :=
  assembleLine ['W', 'R', 'M', ' ', '1', '5', ',', ' ', '0', 'x', '0', '0', '0', '0', '0', '0', '1', '8'] =
    .ok [⟨.issue (.wrm 15 0x00000018), none⟩] ∧
  (HostOp.issue (.wrm 15 0x00000018)).command = ⟨0x200F, 0x00000018⟩ ∧
  assembleLine ['R', 'D', 'H', ' ', '7', ' ', '-', '>', ' ', 'H', '7', ' ', ';', ' ', 'x'] =
    .ok [⟨.issue (.rdh 7), some ['H', '7']⟩] ∧
  assembleLine ['R', 'D', 'H', ' ', '8'] = .error .indexRange

/-- R92, R93: the padded message is the message, 0x80, z zeros and the 64-bit length; its length is 64 n; z is the source's
formula and the least number of zeros that makes a multiple of 64. The equality of the two forms of z, the number of blocks
(R93) and the length of the padded bytes (R92) are marked derived in the spec. For len >= 2^61, which R91 refuses, that the 8 bytes
are len * 8 modulo 2^64 is the model's choice (log 19). -/
def Obligations.PaddingIsTheSpecs : Prop :=
  ∀ m : List Byte,
    pad m = m ++ [0x80] ++ List.replicate (zeroCount m.length) 0 ++ bytesOf64 (BitVec.ofNat 64 (m.length * 8)) ∧
    (pad m).length = 64 * ((m.length + 8) / 64 + 1) ∧
    zeroCount m.length = (64 - (m.length + 9) % 64) % 64 ∧
    zeroCount m.length < 64 ∧ (m.length + 9 + zeroCount m.length) % 64 = 0 ∧
    (∀ z, (m.length + 9 + z) % 64 = 0 → zeroCount m.length ≤ z) ∧
    (messageBlocks m).length = (m.length + 8) / 64 + 1 ∧
    (m.length < 2 ^ 61 → ∃ b, (messageBlocks m).getLast? = some b ∧
      b[14].toNat * 2 ^ 32 + b[15].toNat = m.length * 8)

/-- R94: word k is the big-endian reading of bytes 4k to 4k+3, for every sequence of 4N bytes; word i of block b of a message
is word 16b + i of its packed padding. -/
def Obligations.PackingIsBigEndian : Prop :=
  (∀ (p : List Byte) (n : Nat), p.length = 4 * n →
    (pack p).length = n ∧
    ∀ k, k < n →
      ((pack p).getD k 0).toNat =
        (p.getD (4 * k) 0).toNat * 2 ^ 24 + (p.getD (4 * k + 1) 0).toNat * 2 ^ 16 +
          (p.getD (4 * k + 2) 0).toNat * 2 ^ 8 + (p.getD (4 * k + 3) 0).toNat) ∧
  (∀ (m : List Byte) (b : Nat) (i : Fin 16) (block : Vector Word 16), (messageBlocks m)[b]? = some block →
    (pack (pad m))[16 * b + i.val]? = some block[i.val])

/-- R96: the digest has 32 bytes, D[4i + k] = H[i][31 - 8k : 24 - 8k]. -/
def Obligations.SerialisationIsBigEndian : Prop :=
  ∀ hash : Vector Word 8,
    (serialize hash).length = 32 ∧
    ∀ (i : Fin 8) (k : Fin 4),
      (serialize hash).getD (4 * i.val + k.val) 0 = hash[i.val].extractLsb' (24 - 8 * k.val) 8

/-- 95_test_vectors.md E1, E2 (90_conflicts.md C1: the 64-digit value): the digests of the empty message and of "abc". -/
def Obligations.MessageDigestKnownAnswers : Prop :=
  messageHash [] = some
    [0xe3, 0xb0, 0xc4, 0x42, 0x98, 0xfc, 0x1c, 0x14, 0x9a, 0xfb, 0xf4, 0xc8, 0x99, 0x6f, 0xb9, 0x24,
     0x27, 0xae, 0x41, 0xe4, 0x64, 0x9b, 0x93, 0x4c, 0xa4, 0x95, 0x99, 0x1b, 0x78, 0x52, 0xb8, 0x55] ∧
  messageHash [0x61, 0x62, 0x63] = some
    [0xba, 0x78, 0x16, 0xbf, 0x8f, 0x01, 0xcf, 0xea, 0x41, 0x41, 0x40, 0xde, 0x5d, 0xae, 0x22, 0x23,
     0xb0, 0x03, 0x61, 0xa3, 0x96, 0x17, 0x7a, 0x9c, 0xb4, 0x10, 0xff, 0x61, 0xf2, 0x00, 0x15, 0xad]

/-- R91, R95, R99: a message of 2^61 bytes or more, and a buffer that cannot be allocated, fail before any transaction. For the
buffer R99 says before INIT; that it is before the first WAITIDLE too is R95's line order, where Pad stands above it. That the
allocation is an argument and that a driver which has ended makes no transaction are the model's choices (log 13). -/
def Obligations.HostRefusesBeforeAnyTransaction : Prop :=
  ∀ (m : List Byte) (canAllocate : Bool) (s : State),
    (2 ^ 61 ≤ m.length →
      messageHash m = none ∧ (Driver.start m canAllocate).status = .failed .tooLong ∧
      Rig.move .host ⟨Driver.start m canAllocate, s⟩ = .next ⟨Driver.start m canAllocate, s⟩) ∧
    (m.length < 2 ^ 61 →
      (Driver.start m false).status = .failed .allocation ∧
      Rig.move .host ⟨Driver.start m false, s⟩ = .next ⟨Driver.start m false, s⟩)

/-- R95, R98: whatever the interleaving of host and engine, and whatever good state the core starts in, the driver of R95 never
fails, nothing stops, and when it returns it returns Hash(m), as long as no reset falls. With resets: DriverUnderOneReset and
FairDriverEnds. The shape of the driver's moves is log 13; that an engine's move while idle changes nothing is log 5. -/
def Obligations.DriverReturnsOnlyTheMessageHash : Prop :=
  ∀ (m : List Byte) (s : State) (moves : List Agent), m.length < 2 ^ 61 → s.Inv → (∀ a ∈ moves, a ≠ .reset) →
    ∃ r, Rig.run moves ⟨Driver.start m true, s⟩ = .next r ∧
      (r.driver.status = .running ∨ ∃ d, r.driver.status = .returned d ∧ messageHash m = some d)

/-- R120, R95: with host and engine moving in turns, the driver returns. The shape of the driver's moves is log 13; that an
engine's move while idle changes nothing is log 5. -/
def Obligations.DriverReturnsUnderAlternatingMoves : Prop :=
  ∀ (m : List Byte) (s : State), m.length < 2 ^ 61 → s.Inv →
    ∃ n r d, Rig.run (List.replicate n [Agent.host, Agent.engine]).flatten ⟨Driver.start m true, s⟩ = .next r ∧
      r.driver.status = .returned d

/-- R95, R98, R114: a reset at any one point does not make the driver return a wrong digest: if it returns at all, it returns
Hash(m). HVALID = 0 makes the later COMPRESS or RDH set ERR, and the driver's checks see it. (A second reset could clear ERR
again; nothing is said of two.) That all moves complete takes in the engine's moves while idle, which R79 does not give: that such
a move changes nothing is log 5. The shape of the moves, resets among them, is log 13. Both are the model's choices. -/
def Obligations.DriverUnderOneReset : Prop :=
  ∀ (m : List Byte) (s : State) (moves : List Agent), m.length < 2 ^ 61 → s.Inv →
    moves.countP (fun a => decide (a = .reset)) ≤ 1 →
    ∃ r, Rig.run moves ⟨Driver.start m true, s⟩ = .next r ∧
      ∀ d, r.driver.status = .returned d → messageHash m = some d

/-- R120, R95: "So WAITIDLE terminates, and a host following" R95 "completes": along every infinite sequence of moves in which the
engine is weakly fair and the host goes on, the driver ends, whatever resets fall; and where none falls it returns. That the
engine is weakly fair is R120, and its form on infinite sequences, as well as that the host goes on as a hypothesis of its own, is
log 12 (the model's reading). That the run completes through the engine's moves while idle, which change nothing, is log 5, and the
shape of the moves, resets among them, is log 13: the model's choices. -/
def Obligations.FairDriverEnds : Prop :=
  ∀ (m : List Byte) (s : State) (moves : Nat → Agent), m.length < 2 ^ 61 → s.Inv →
    RigEngineFair moves ⟨Driver.start m true, s⟩ → HostGoesOn moves →
    ∃ n r, rigAlong moves ⟨Driver.start m true, s⟩ n = .next r ∧ r.driver.status ≠ .running ∧
      ((∀ k, moves k ≠ .reset) → ∃ d, r.driver.status = .returned d)

/-- R95, R96 with C6 of 90_conflicts.md ("The host drops the words after serialising them"): the return line gives Serialize(Hw)
and leaves no words, and along every list of moves, from the start of any Hash(m) or from any rig whose driver holds no words once
it has ended, a driver that has ended holds none. That one that fails drops them too, and the shape of the moves, are log 13: the
model's choices. -/
def Obligations.EndedDriverHoldsNoHashWords : Prop :=
  (∀ (hw : List Word) (rest : List DriverOp) (s : State),
    Rig.move .host ⟨⟨.ret :: rest, hw, .running⟩, s⟩ = .next ⟨⟨rest, [], .returned (hw.flatMap bytesOfWord)⟩, s⟩) ∧
  (∀ (m : List Byte) (canAllocate : Bool) (s : State) (moves : List Agent) (r : Rig),
    Rig.run moves ⟨Driver.start m canAllocate, s⟩ = .next r → r.driver.status ≠ .running → r.driver.hw = []) ∧
  (∀ (moves : List Agent) (q r : Rig), (q.driver.status ≠ .running → q.driver.hw = []) →
    Rig.run moves q = .next r → r.driver.status ≠ .running → r.driver.hw = [])
end

