-- ==== Sys2Proof/Laws/Decode.lean ====
section
/-! SUPPORT. The decoder on a word given by its fields (30_encoding.md rules R54, R57): every word is the packing of its three
fields, and decoding a packed word is a case analysis on them. -/

namespace Sys2Proof

/-- R54: the fields of a packed word. -/
theorem pack_op (op : BitVec 4) (rsv : BitVec 8) (idx : BitVec 4) :
    (packCommand op rsv idx).extractLsb' 12 4 = op := by
  ext i hi
  simp only [packCommand, BitVec.getElem_extractLsb', BitVec.getLsbD_append]
  interval_cases i <;> simp

theorem pack_rsv (op : BitVec 4) (rsv : BitVec 8) (idx : BitVec 4) :
    (packCommand op rsv idx).extractLsb' 4 8 = rsv := by
  ext i hi
  simp only [packCommand, BitVec.getElem_extractLsb', BitVec.getLsbD_append]
  interval_cases i <;> simp

theorem pack_idx (op : BitVec 4) (rsv : BitVec 8) (idx : BitVec 4) :
    (packCommand op rsv idx).extractLsb' 0 4 = idx := by
  ext i hi
  simp only [packCommand, BitVec.getElem_extractLsb', BitVec.getLsbD_append]
  interval_cases i <;> simp

/-- R54: a word is the packing of its fields. -/
theorem pack_fields (cmd : BitVec 16) :
    packCommand (cmd.extractLsb' 12 4) (cmd.extractLsb' 4 8) (cmd.extractLsb' 0 4) = cmd := by
  apply BitVec.eq_of_getLsbD_eq
  intro i hi
  simp only [packCommand, BitVec.getLsbD_append, BitVec.getLsbD_extractLsb']
  interval_cases i <;> simp

/-- R57 on the fields. -/
theorem decode_pack (op : BitVec 4) (rsv : BitVec 8) (idx : BitVec 4) (d : Word) :
    decode ⟨packCommand op rsv idx, d⟩ =
      if rsv ≠ 0 then .error .reservedBits
      else match op with
        | 0x0#4 => decodeNoIndex idx .nop
        | 0x1#4 => decodeNoIndex idx .init
        | 0x2#4 => .ok (.wrm idx d)
        | 0x3#4 => decodeNoIndex idx .compress
        | 0x4#4 => if idx.toNat < 8 then .ok (.rdh idx) else .error .hashIndexRange
        | 0x5#4 => decodeNoIndex idx .rdstat
        | 0x6#4 => decodeNoIndex idx .rdcnt
        | _ => .error .reservedOpcode := by
  have ho := pack_op op rsv idx
  have hr := pack_rsv op rsv idx
  have hx := pack_idx op rsv idx
  generalize packCommand op rsv idx = cmd at ho hr hx ⊢
  subst ho hr hx
  rfl

end Sys2Proof
end

