-- ==== Sys2Proof/Laws/State.lean ====
section
/-! SUPPORT. One lemma for each field after each named update of State, true by rfl, so that no later proof unfolds a record
update. (The lemmas on writeScheduleHead are proved by simp only: checking them by rfl makes Lean compare whole schedules.) -/

namespace Sys2Proof.Machine

open Sys2Proof

/-! ### respond -/

@[simp] theorem State.respond_h (s : State) (x : Word) : (s.respond x).h = s.h := rfl
@[simp] theorem State.respond_hvalid (s : State) (x : Word) : (s.respond x).hvalid = s.hvalid := rfl
@[simp] theorem State.respond_m (s : State) (x : Word) : (s.respond x).m = s.m := rfl
@[simp] theorem State.respond_mmask (s : State) (x : Word) : (s.respond x).mmask = s.mmask := rfl
@[simp] theorem State.respond_w (s : State) (x : Word) : (s.respond x).w = s.w := rfl
@[simp] theorem State.respond_v (s : State) (x : Word) : (s.respond x).v = s.v := rfl
@[simp] theorem State.respond_j (s : State) (x : Word) : (s.respond x).j = s.j := rfl
@[simp] theorem State.respond_phase (s : State) (x : Word) : (s.respond x).phase = s.phase := rfl
@[simp] theorem State.respond_err (s : State) (x : Word) : (s.respond x).err = s.err := rfl
@[simp] theorem State.respond_bcnt (s : State) (x : Word) : (s.respond x).bcnt = s.bcnt := rfl
@[simp] theorem State.respond_result (s : State) (x : Word) : (s.respond x).result = x := rfl
@[simp] theorem State.respond_inputs (s : State) (x : Word) : (s.respond x).inputs = s.inputs := rfl
@[simp] theorem State.respond_held (s : State) (x : Word) : (s.respond x).held = s.held := rfl

/-! ### reject -/

@[simp] theorem State.reject_h (s : State) (c : Cause) : (s.reject c).h = s.h := rfl
@[simp] theorem State.reject_hvalid (s : State) (c : Cause) : (s.reject c).hvalid = s.hvalid := rfl
@[simp] theorem State.reject_m (s : State) (c : Cause) : (s.reject c).m = s.m := rfl
@[simp] theorem State.reject_mmask (s : State) (c : Cause) : (s.reject c).mmask = s.mmask := rfl
@[simp] theorem State.reject_w (s : State) (c : Cause) : (s.reject c).w = s.w := rfl
@[simp] theorem State.reject_v (s : State) (c : Cause) : (s.reject c).v = s.v := rfl
@[simp] theorem State.reject_j (s : State) (c : Cause) : (s.reject c).j = s.j := rfl
@[simp] theorem State.reject_phase (s : State) (c : Cause) : (s.reject c).phase = s.phase := rfl
@[simp] theorem State.reject_err (s : State) (c : Cause) : (s.reject c).err = s.err ||| c.bit := rfl
@[simp] theorem State.reject_bcnt (s : State) (c : Cause) : (s.reject c).bcnt = s.bcnt := rfl
@[simp] theorem State.reject_result (s : State) (c : Cause) : (s.reject c).result = 0 := rfl
@[simp] theorem State.reject_inputs (s : State) (c : Cause) : (s.reject c).inputs = s.inputs := rfl
@[simp] theorem State.reject_held (s : State) (c : Cause) : (s.reject c).held = s.held := rfl

/-! ### writeHash -/

@[simp] theorem State.writeHash_h (s : State) (x : Vector Word 8) : (s.writeHash x).h = x := rfl
@[simp] theorem State.writeHash_hvalid (s : State) (x : Vector Word 8) : (s.writeHash x).hvalid = s.hvalid := rfl
@[simp] theorem State.writeHash_m (s : State) (x : Vector Word 8) : (s.writeHash x).m = s.m := rfl
@[simp] theorem State.writeHash_mmask (s : State) (x : Vector Word 8) : (s.writeHash x).mmask = s.mmask := rfl
@[simp] theorem State.writeHash_w (s : State) (x : Vector Word 8) : (s.writeHash x).w = s.w := rfl
@[simp] theorem State.writeHash_v (s : State) (x : Vector Word 8) : (s.writeHash x).v = s.v := rfl
@[simp] theorem State.writeHash_j (s : State) (x : Vector Word 8) : (s.writeHash x).j = s.j := rfl
@[simp] theorem State.writeHash_phase (s : State) (x : Vector Word 8) : (s.writeHash x).phase = s.phase := rfl
@[simp] theorem State.writeHash_err (s : State) (x : Vector Word 8) : (s.writeHash x).err = s.err := rfl
@[simp] theorem State.writeHash_bcnt (s : State) (x : Vector Word 8) : (s.writeHash x).bcnt = s.bcnt := rfl
@[simp] theorem State.writeHash_result (s : State) (x : Vector Word 8) : (s.writeHash x).result = s.result := rfl
@[simp] theorem State.writeHash_inputs (s : State) (x : Vector Word 8) : (s.writeHash x).inputs = s.inputs := rfl
@[simp] theorem State.writeHash_held (s : State) (x : Vector Word 8) : (s.writeHash x).held = s.held := rfl

/-! ### writeM -/

@[simp] theorem State.writeM_h (s : State) (i : Fin 16) (x : Word) : (s.writeM i x).h = s.h := rfl
@[simp] theorem State.writeM_hvalid (s : State) (i : Fin 16) (x : Word) : (s.writeM i x).hvalid = s.hvalid := rfl
@[simp] theorem State.writeM_m (s : State) (i : Fin 16) (x : Word) : (s.writeM i x).m = s.m.set i.val x := rfl
@[simp] theorem State.writeM_mmask (s : State) (i : Fin 16) (x : Word) : (s.writeM i x).mmask = s.mmask ||| (1#16 <<< i.val) := rfl
@[simp] theorem State.writeM_w (s : State) (i : Fin 16) (x : Word) : (s.writeM i x).w = s.w := rfl
@[simp] theorem State.writeM_v (s : State) (i : Fin 16) (x : Word) : (s.writeM i x).v = s.v := rfl
@[simp] theorem State.writeM_j (s : State) (i : Fin 16) (x : Word) : (s.writeM i x).j = s.j := rfl
@[simp] theorem State.writeM_phase (s : State) (i : Fin 16) (x : Word) : (s.writeM i x).phase = s.phase := rfl
@[simp] theorem State.writeM_err (s : State) (i : Fin 16) (x : Word) : (s.writeM i x).err = s.err := rfl
@[simp] theorem State.writeM_bcnt (s : State) (i : Fin 16) (x : Word) : (s.writeM i x).bcnt = s.bcnt := rfl
@[simp] theorem State.writeM_result (s : State) (i : Fin 16) (x : Word) : (s.writeM i x).result = s.result := rfl
@[simp] theorem State.writeM_inputs (s : State) (i : Fin 16) (x : Word) : (s.writeM i x).inputs = s.inputs := rfl
@[simp] theorem State.writeM_held_m (s : State) (i : Fin 16) (x : Word) : (s.writeM i x).held.m = s.held.m.set i.val true := rfl
@[simp] theorem State.writeM_held_w (s : State) (i : Fin 16) (x : Word) : (s.writeM i x).held.w = s.held.w := rfl
@[simp] theorem State.writeM_held_v (s : State) (i : Fin 16) (x : Word) : (s.writeM i x).held.v = s.held.v := rfl
@[simp] theorem State.writeM_held_j (s : State) (i : Fin 16) (x : Word) : (s.writeM i x).held.j = s.held.j := rfl

/-! ### writeW -/

@[simp] theorem State.writeW_h (s : State) (i : Fin 64) (x : Word) : (s.writeW i x).h = s.h := rfl
@[simp] theorem State.writeW_hvalid (s : State) (i : Fin 64) (x : Word) : (s.writeW i x).hvalid = s.hvalid := rfl
@[simp] theorem State.writeW_m (s : State) (i : Fin 64) (x : Word) : (s.writeW i x).m = s.m := rfl
@[simp] theorem State.writeW_mmask (s : State) (i : Fin 64) (x : Word) : (s.writeW i x).mmask = s.mmask := rfl
@[simp] theorem State.writeW_w (s : State) (i : Fin 64) (x : Word) : (s.writeW i x).w = s.w.set i.val x := rfl
@[simp] theorem State.writeW_v (s : State) (i : Fin 64) (x : Word) : (s.writeW i x).v = s.v := rfl
@[simp] theorem State.writeW_j (s : State) (i : Fin 64) (x : Word) : (s.writeW i x).j = s.j := rfl
@[simp] theorem State.writeW_phase (s : State) (i : Fin 64) (x : Word) : (s.writeW i x).phase = s.phase := rfl
@[simp] theorem State.writeW_err (s : State) (i : Fin 64) (x : Word) : (s.writeW i x).err = s.err := rfl
@[simp] theorem State.writeW_bcnt (s : State) (i : Fin 64) (x : Word) : (s.writeW i x).bcnt = s.bcnt := rfl
@[simp] theorem State.writeW_result (s : State) (i : Fin 64) (x : Word) : (s.writeW i x).result = s.result := rfl
@[simp] theorem State.writeW_inputs (s : State) (i : Fin 64) (x : Word) : (s.writeW i x).inputs = s.inputs := rfl
@[simp] theorem State.writeW_held_m (s : State) (i : Fin 64) (x : Word) : (s.writeW i x).held.m = s.held.m := rfl
@[simp] theorem State.writeW_held_w (s : State) (i : Fin 64) (x : Word) : (s.writeW i x).held.w = s.held.w.set i.val true := rfl
@[simp] theorem State.writeW_held_v (s : State) (i : Fin 64) (x : Word) : (s.writeW i x).held.v = s.held.v := rfl
@[simp] theorem State.writeW_held_j (s : State) (i : Fin 64) (x : Word) : (s.writeW i x).held.j = s.held.j := rfl

/-! ### writeScheduleHead -/

@[simp] theorem State.writeScheduleHead_h (s : State) (b : Vector Word 16) : (s.writeScheduleHead b).h = s.h := by
  simp only [State.writeScheduleHead]
@[simp] theorem State.writeScheduleHead_w (s : State) (b : Vector Word 16) : (s.writeScheduleHead b).w = withHead b s.w := by
  simp only [State.writeScheduleHead]
@[simp] theorem State.writeScheduleHead_held_w (s : State) (b : Vector Word 16) : (s.writeScheduleHead b).held.w = withHeadHeld s.held.w := by
  simp only [State.writeScheduleHead]
@[simp] theorem State.writeScheduleHead_hvalid (s : State) (b : Vector Word 16) : (s.writeScheduleHead b).hvalid = s.hvalid := by
  simp only [State.writeScheduleHead]
@[simp] theorem State.writeScheduleHead_m (s : State) (b : Vector Word 16) : (s.writeScheduleHead b).m = s.m := by
  simp only [State.writeScheduleHead]
@[simp] theorem State.writeScheduleHead_mmask (s : State) (b : Vector Word 16) : (s.writeScheduleHead b).mmask = s.mmask := by
  simp only [State.writeScheduleHead]
@[simp] theorem State.writeScheduleHead_v (s : State) (b : Vector Word 16) : (s.writeScheduleHead b).v = s.v := by
  simp only [State.writeScheduleHead]
@[simp] theorem State.writeScheduleHead_j (s : State) (b : Vector Word 16) : (s.writeScheduleHead b).j = s.j := by
  simp only [State.writeScheduleHead]
@[simp] theorem State.writeScheduleHead_phase (s : State) (b : Vector Word 16) : (s.writeScheduleHead b).phase = s.phase := by
  simp only [State.writeScheduleHead]
@[simp] theorem State.writeScheduleHead_err (s : State) (b : Vector Word 16) : (s.writeScheduleHead b).err = s.err := by
  simp only [State.writeScheduleHead]
@[simp] theorem State.writeScheduleHead_bcnt (s : State) (b : Vector Word 16) : (s.writeScheduleHead b).bcnt = s.bcnt := by
  simp only [State.writeScheduleHead]
@[simp] theorem State.writeScheduleHead_result (s : State) (b : Vector Word 16) : (s.writeScheduleHead b).result = s.result := by
  simp only [State.writeScheduleHead]
@[simp] theorem State.writeScheduleHead_inputs (s : State) (b : Vector Word 16) : (s.writeScheduleHead b).inputs = s.inputs := by
  simp only [State.writeScheduleHead]
@[simp] theorem State.writeScheduleHead_held_m (s : State) (b : Vector Word 16) : (s.writeScheduleHead b).held.m = s.held.m := by
  simp only [State.writeScheduleHead]
@[simp] theorem State.writeScheduleHead_held_v (s : State) (b : Vector Word 16) : (s.writeScheduleHead b).held.v = s.held.v := by
  simp only [State.writeScheduleHead]
@[simp] theorem State.writeScheduleHead_held_j (s : State) (b : Vector Word 16) : (s.writeScheduleHead b).held.j = s.held.j := by
  simp only [State.writeScheduleHead]

/-! ### writeWorking -/

@[simp] theorem State.writeWorking_h (s : State) (x : Working) : (s.writeWorking x).h = s.h := rfl
@[simp] theorem State.writeWorking_hvalid (s : State) (x : Working) : (s.writeWorking x).hvalid = s.hvalid := rfl
@[simp] theorem State.writeWorking_m (s : State) (x : Working) : (s.writeWorking x).m = s.m := rfl
@[simp] theorem State.writeWorking_mmask (s : State) (x : Working) : (s.writeWorking x).mmask = s.mmask := rfl
@[simp] theorem State.writeWorking_w (s : State) (x : Working) : (s.writeWorking x).w = s.w := rfl
@[simp] theorem State.writeWorking_v (s : State) (x : Working) : (s.writeWorking x).v = x := rfl
@[simp] theorem State.writeWorking_j (s : State) (x : Working) : (s.writeWorking x).j = s.j := rfl
@[simp] theorem State.writeWorking_phase (s : State) (x : Working) : (s.writeWorking x).phase = s.phase := rfl
@[simp] theorem State.writeWorking_err (s : State) (x : Working) : (s.writeWorking x).err = s.err := rfl
@[simp] theorem State.writeWorking_bcnt (s : State) (x : Working) : (s.writeWorking x).bcnt = s.bcnt := rfl
@[simp] theorem State.writeWorking_result (s : State) (x : Working) : (s.writeWorking x).result = s.result := rfl
@[simp] theorem State.writeWorking_inputs (s : State) (x : Working) : (s.writeWorking x).inputs = s.inputs := rfl
@[simp] theorem State.writeWorking_held_m (s : State) (x : Working) : (s.writeWorking x).held.m = s.held.m := rfl
@[simp] theorem State.writeWorking_held_w (s : State) (x : Working) : (s.writeWorking x).held.w = s.held.w := rfl
@[simp] theorem State.writeWorking_held_v (s : State) (x : Working) : (s.writeWorking x).held.v = true := rfl
@[simp] theorem State.writeWorking_held_j (s : State) (x : Working) : (s.writeWorking x).held.j = s.held.j := rfl

/-! ### writeJ -/

@[simp] theorem State.writeJ_h (s : State) (x : BitVec 7) : (s.writeJ x).h = s.h := rfl
@[simp] theorem State.writeJ_hvalid (s : State) (x : BitVec 7) : (s.writeJ x).hvalid = s.hvalid := rfl
@[simp] theorem State.writeJ_m (s : State) (x : BitVec 7) : (s.writeJ x).m = s.m := rfl
@[simp] theorem State.writeJ_mmask (s : State) (x : BitVec 7) : (s.writeJ x).mmask = s.mmask := rfl
@[simp] theorem State.writeJ_w (s : State) (x : BitVec 7) : (s.writeJ x).w = s.w := rfl
@[simp] theorem State.writeJ_v (s : State) (x : BitVec 7) : (s.writeJ x).v = s.v := rfl
@[simp] theorem State.writeJ_j (s : State) (x : BitVec 7) : (s.writeJ x).j = x := rfl
@[simp] theorem State.writeJ_phase (s : State) (x : BitVec 7) : (s.writeJ x).phase = s.phase := rfl
@[simp] theorem State.writeJ_err (s : State) (x : BitVec 7) : (s.writeJ x).err = s.err := rfl
@[simp] theorem State.writeJ_bcnt (s : State) (x : BitVec 7) : (s.writeJ x).bcnt = s.bcnt := rfl
@[simp] theorem State.writeJ_result (s : State) (x : BitVec 7) : (s.writeJ x).result = s.result := rfl
@[simp] theorem State.writeJ_inputs (s : State) (x : BitVec 7) : (s.writeJ x).inputs = s.inputs := rfl
@[simp] theorem State.writeJ_held_m (s : State) (x : BitVec 7) : (s.writeJ x).held.m = s.held.m := rfl
@[simp] theorem State.writeJ_held_w (s : State) (x : BitVec 7) : (s.writeJ x).held.w = s.held.w := rfl
@[simp] theorem State.writeJ_held_v (s : State) (x : BitVec 7) : (s.writeJ x).held.v = s.held.v := rfl
@[simp] theorem State.writeJ_held_j (s : State) (x : BitVec 7) : (s.writeJ x).held.j = true := rfl

/-! ### toPhase -/

@[simp] theorem State.toPhase_h (s : State) (p : Phase) : (s.toPhase p).h = s.h := rfl
@[simp] theorem State.toPhase_hvalid (s : State) (p : Phase) : (s.toPhase p).hvalid = s.hvalid := rfl
@[simp] theorem State.toPhase_m (s : State) (p : Phase) : (s.toPhase p).m = s.m := rfl
@[simp] theorem State.toPhase_mmask (s : State) (p : Phase) : (s.toPhase p).mmask = s.mmask := rfl
@[simp] theorem State.toPhase_w (s : State) (p : Phase) : (s.toPhase p).w = s.w := rfl
@[simp] theorem State.toPhase_v (s : State) (p : Phase) : (s.toPhase p).v = s.v := rfl
@[simp] theorem State.toPhase_j (s : State) (p : Phase) : (s.toPhase p).j = s.j := rfl
@[simp] theorem State.toPhase_phase (s : State) (p : Phase) : (s.toPhase p).phase = p := rfl
@[simp] theorem State.toPhase_err (s : State) (p : Phase) : (s.toPhase p).err = s.err := rfl
@[simp] theorem State.toPhase_bcnt (s : State) (p : Phase) : (s.toPhase p).bcnt = s.bcnt := rfl
@[simp] theorem State.toPhase_result (s : State) (p : Phase) : (s.toPhase p).result = s.result := rfl
@[simp] theorem State.toPhase_inputs (s : State) (p : Phase) : (s.toPhase p).inputs = s.inputs := rfl
@[simp] theorem State.toPhase_held (s : State) (p : Phase) : (s.toPhase p).held = s.held := rfl

/-! ### clearMask -/

@[simp] theorem State.clearMask_h (s : State) : (s.clearMask).h = s.h := rfl
@[simp] theorem State.clearMask_hvalid (s : State) : (s.clearMask).hvalid = s.hvalid := rfl
@[simp] theorem State.clearMask_m (s : State) : (s.clearMask).m = s.m := rfl
@[simp] theorem State.clearMask_mmask (s : State) : (s.clearMask).mmask = 0 := rfl
@[simp] theorem State.clearMask_w (s : State) : (s.clearMask).w = s.w := rfl
@[simp] theorem State.clearMask_v (s : State) : (s.clearMask).v = s.v := rfl
@[simp] theorem State.clearMask_j (s : State) : (s.clearMask).j = s.j := rfl
@[simp] theorem State.clearMask_phase (s : State) : (s.clearMask).phase = s.phase := rfl
@[simp] theorem State.clearMask_err (s : State) : (s.clearMask).err = s.err := rfl
@[simp] theorem State.clearMask_bcnt (s : State) : (s.clearMask).bcnt = s.bcnt := rfl
@[simp] theorem State.clearMask_result (s : State) : (s.clearMask).result = s.result := rfl
@[simp] theorem State.clearMask_inputs (s : State) : (s.clearMask).inputs = s.inputs := rfl
@[simp] theorem State.clearMask_held (s : State) : (s.clearMask).held = s.held := rfl

/-! ### withInputs -/

@[simp] theorem State.withInputs_h (s : State) (ts : List Turn) : (s.withInputs ts).h = s.h := rfl
@[simp] theorem State.withInputs_hvalid (s : State) (ts : List Turn) : (s.withInputs ts).hvalid = s.hvalid := rfl
@[simp] theorem State.withInputs_m (s : State) (ts : List Turn) : (s.withInputs ts).m = s.m := rfl
@[simp] theorem State.withInputs_mmask (s : State) (ts : List Turn) : (s.withInputs ts).mmask = s.mmask := rfl
@[simp] theorem State.withInputs_w (s : State) (ts : List Turn) : (s.withInputs ts).w = s.w := rfl
@[simp] theorem State.withInputs_v (s : State) (ts : List Turn) : (s.withInputs ts).v = s.v := rfl
@[simp] theorem State.withInputs_j (s : State) (ts : List Turn) : (s.withInputs ts).j = s.j := rfl
@[simp] theorem State.withInputs_phase (s : State) (ts : List Turn) : (s.withInputs ts).phase = s.phase := rfl
@[simp] theorem State.withInputs_err (s : State) (ts : List Turn) : (s.withInputs ts).err = s.err := rfl
@[simp] theorem State.withInputs_bcnt (s : State) (ts : List Turn) : (s.withInputs ts).bcnt = s.bcnt := rfl
@[simp] theorem State.withInputs_result (s : State) (ts : List Turn) : (s.withInputs ts).result = s.result := rfl
@[simp] theorem State.withInputs_inputs (s : State) (ts : List Turn) : (s.withInputs ts).inputs = ts := rfl
@[simp] theorem State.withInputs_held (s : State) (ts : List Turn) : (s.withInputs ts).held = s.held := rfl

/-! ### beginHash -/

@[simp] theorem State.beginHash_h (s : State) : (s.beginHash).h = romIV := rfl
@[simp] theorem State.beginHash_hvalid (s : State) : (s.beginHash).hvalid = true := rfl
@[simp] theorem State.beginHash_m (s : State) : (s.beginHash).m = s.m := rfl
@[simp] theorem State.beginHash_mmask (s : State) : (s.beginHash).mmask = 0 := rfl
@[simp] theorem State.beginHash_w (s : State) : (s.beginHash).w = s.w := rfl
@[simp] theorem State.beginHash_v (s : State) : (s.beginHash).v = s.v := rfl
@[simp] theorem State.beginHash_j (s : State) : (s.beginHash).j = s.j := rfl
@[simp] theorem State.beginHash_phase (s : State) : (s.beginHash).phase = s.phase := rfl
@[simp] theorem State.beginHash_err (s : State) : (s.beginHash).err = 0 := rfl
@[simp] theorem State.beginHash_bcnt (s : State) : (s.beginHash).bcnt = 0 := rfl
@[simp] theorem State.beginHash_result (s : State) : (s.beginHash).result = s.result := rfl
@[simp] theorem State.beginHash_inputs (s : State) : (s.beginHash).inputs = s.inputs := rfl
@[simp] theorem State.beginHash_held (s : State) : (s.beginHash).held = s.held := rfl

/-! ### beginBlock -/

@[simp] theorem State.beginBlock_h (s : State) : (s.beginBlock).h = s.h := rfl
@[simp] theorem State.beginBlock_hvalid (s : State) : (s.beginBlock).hvalid = s.hvalid := rfl
@[simp] theorem State.beginBlock_m (s : State) : (s.beginBlock).m = s.m := rfl
@[simp] theorem State.beginBlock_mmask (s : State) : (s.beginBlock).mmask = 0 := rfl
@[simp] theorem State.beginBlock_w (s : State) : (s.beginBlock).w = s.w := rfl
@[simp] theorem State.beginBlock_v (s : State) : (s.beginBlock).v = s.v := rfl
@[simp] theorem State.beginBlock_j (s : State) : (s.beginBlock).j = s.j := rfl
@[simp] theorem State.beginBlock_phase (s : State) : (s.beginBlock).phase = .load := rfl
@[simp] theorem State.beginBlock_err (s : State) : (s.beginBlock).err = s.err := rfl
@[simp] theorem State.beginBlock_bcnt (s : State) : (s.beginBlock).bcnt = s.bcnt := rfl
@[simp] theorem State.beginBlock_result (s : State) : (s.beginBlock).result = s.result := rfl
@[simp] theorem State.beginBlock_inputs (s : State) : (s.beginBlock).inputs = s.inputs := rfl
@[simp] theorem State.beginBlock_held (s : State) : (s.beginBlock).held = s.held := rfl

/-! ### resetNow -/

@[simp] theorem State.resetNow_h (s : State) : (s.resetNow).h = State.reset.h := rfl
@[simp] theorem State.resetNow_hvalid (s : State) : (s.resetNow).hvalid = State.reset.hvalid := rfl
@[simp] theorem State.resetNow_m (s : State) : (s.resetNow).m = State.reset.m := rfl
@[simp] theorem State.resetNow_mmask (s : State) : (s.resetNow).mmask = State.reset.mmask := rfl
@[simp] theorem State.resetNow_w (s : State) : (s.resetNow).w = State.reset.w := rfl
@[simp] theorem State.resetNow_v (s : State) : (s.resetNow).v = State.reset.v := rfl
@[simp] theorem State.resetNow_j (s : State) : (s.resetNow).j = State.reset.j := rfl
@[simp] theorem State.resetNow_phase (s : State) : (s.resetNow).phase = State.reset.phase := rfl
@[simp] theorem State.resetNow_err (s : State) : (s.resetNow).err = State.reset.err := rfl
@[simp] theorem State.resetNow_bcnt (s : State) : (s.resetNow).bcnt = State.reset.bcnt := rfl
@[simp] theorem State.resetNow_result (s : State) : (s.resetNow).result = State.reset.result := rfl
@[simp] theorem State.resetNow_inputs (s : State) : (s.resetNow).inputs = s.inputs := rfl
@[simp] theorem State.resetNow_held_m (s : State) : (s.resetNow).held.m = State.reset.held.m := rfl
@[simp] theorem State.resetNow_held_w (s : State) : (s.resetNow).held.w = State.reset.held.w := rfl
@[simp] theorem State.resetNow_held_v (s : State) : (s.resetNow).held.v = State.reset.held.v := rfl
@[simp] theorem State.resetNow_held_j (s : State) : (s.resetNow).held.j = State.reset.held.j := rfl

/-- R80: a word of the schedule whose head was written. -/
@[simp] theorem withHead_getElem (block : Vector Word 16) (w : Vector Word 64) (k : Nat) (hk : k < 64) :
    (withHead block w)[k] = if h : k < 16 then block[k] else w[k] := by simp [withHead]

/-- R80: a mark of the schedule whose head was written. -/
@[simp] theorem withHeadHeld_getElem (held : Vector Bool 64) (k : Nat) (hk : k < 64) :
    (withHeadHeld held)[k] = if k < 16 then true else held[k] := by simp [withHeadHeld]

/-! ### Equal states are equal field by field -/

/-- Two marks with equal fields are equal. -/
theorem Held.eq_of_fields {x y : Held} (hm : x.m = y.m) (hw : x.w = y.w) (hv : x.v = y.v) (hj : x.j = y.j) : x = y := by
  cases x; cases y; simp_all

/-- Two states with equal fields are equal: for a statement that gives a whole next state, field by field. -/
theorem State.eq_of_fields {s t : State} (hh : s.h = t.h) (hhv : s.hvalid = t.hvalid) (hm : s.m = t.m)
    (hmm : s.mmask = t.mmask) (hw : s.w = t.w) (hv : s.v = t.v) (hj : s.j = t.j) (hp : s.phase = t.phase)
    (he : s.err = t.err) (hb : s.bcnt = t.bcnt) (hr : s.result = t.result) (hheld : s.held = t.held)
    (hi : s.inputs = t.inputs) : s = t := by
  cases s; cases t; simp_all

end Sys2Proof.Machine
end

