-- ==== Sys2Proof/Laws/Ops.lean ====
section
/-! SUPPORT. What each shared operation can do, said once: the checks, the reads, rejection. Later proofs cite these and do not
unfold the operations. -/

namespace Sys2Proof.Machine

open Sys2Proof

/-! ### Flags and causes -/

@[simp] theorem busy_eq_true (s : State) : s.busy = true ↔ s.phase ≠ .idle := by simp [State.busy]

@[simp] theorem busy_eq_false (s : State) : s.busy = false ↔ s.phase = .idle := by simp [State.busy]

@[simp] theorem mfull_eq_true (s : State) : s.mfull = true ↔ s.mmask = 0xFFFF := by simp [State.mfull]

@[simp] theorem mfull_eq_false (s : State) : s.mfull = false ↔ s.mmask ≠ 0xFFFF := by
  simp [State.mfull]

/-- R102: the ERR bits of the causes, and that only the state's checks can fail. -/
@[simp] theorem illegal_bit : Cause.illegal.bit = 0b0001 := rfl
@[simp] theorem busy_bit : Cause.busy.bit = 0b0010 := rfl
@[simp] theorem noInit_bit : Cause.noInit.bit = 0b0100 := rfl
@[simp] theorem incomplete_bit : Cause.incomplete.bit = 0b1000 := rfl

@[simp] theorem illegal_never_fails (s : State) : Cause.illegal.fails s = false := rfl
@[simp] theorem busy_fails (s : State) : Cause.busy.fails s = s.busy := rfl
@[simp] theorem noInit_fails (s : State) : Cause.noInit.fails s = !s.hvalid := rfl
@[simp] theorem incomplete_fails (s : State) : Cause.incomplete.fails s = !s.mfull := rfl

/-- R30: the bits of STATUS. -/
theorem status_getLsbD (s : State) (i : Nat) :
    s.status.getLsbD i =
      if i = 0 then s.busy
      else if i = 1 then s.hvalid
      else if i = 2 then s.mfull
      else if i < 8 then false
      else if i < 12 then s.err.getLsbD (i - 8)
      else if i < 16 then false
      else s.mmask.getLsbD (i - 16) := by
  simp only [State.status, BitVec.getLsbD_append]
  by_cases h : i < 16
  · interval_cases i <;> simp
  · have e : i - 1 - 1 - 1 - 5 - 4 - 4 = i - 16 := by omega
    rw [e]
    repeat' split
    all_goals first | rfl | omega

/-! ### Checks -/

/-- R101: no check of an empty list fails. -/
@[simp] theorem guarded_nil (k : State → Result) (s : State) : guarded [] k s = k s := rfl

/-- R101: the first check decides, or the rest of the checks do. -/
theorem guarded_cons (c : Cause) (cs : List Cause) (k : State → Result) (s : State) :
    guarded (c :: cs) k s = if c.fails s = true then .next (s.reject c) else guarded cs k s := by
  cases h : c.fails s <;> simp [guarded, firstFailing, List.find?, h]

/-- R101, order 2: the busy check. -/
theorem guarded_busy {s : State} (h : s.phase ≠ .idle) (cs : List Cause) (k : State → Result) :
    guarded (.busy :: cs) k s = .next (s.reject .busy) := by
  rw [guarded_cons, if_pos (by simp [h])]

theorem guarded_idle {s : State} (h : s.phase = .idle) (cs : List Cause) (k : State → Result) :
    guarded (.busy :: cs) k s = guarded cs k s := by
  rw [guarded_cons, if_neg (by simp [h])]

/-- R101, order 3: the check of HVALID. -/
theorem guarded_noInit {s : State} (h : s.hvalid = false) (cs : List Cause) (k : State → Result) :
    guarded (.noInit :: cs) k s = .next (s.reject .noInit) := by
  rw [guarded_cons, if_pos (by simp [h])]

theorem guarded_hvalid {s : State} (h : s.hvalid = true) (cs : List Cause) (k : State → Result) :
    guarded (.noInit :: cs) k s = guarded cs k s := by
  rw [guarded_cons, if_neg (by simp [h])]

/-- R101, order 4: the check of MMASK. -/
theorem guarded_incomplete {s : State} (h : s.mmask ≠ 0xFFFF) (cs : List Cause) (k : State → Result) :
    guarded (.incomplete :: cs) k s = .next (s.reject .incomplete) := by
  rw [guarded_cons, if_pos (by simpa using h)]

theorem guarded_full {s : State} (h : s.mmask = 0xFFFF) (cs : List Cause) (k : State → Result) :
    guarded (.incomplete :: cs) k s = guarded cs k s := by
  rw [guarded_cons, if_neg (by simp [h])]

/-- R100, R101: a command whose check fails is rejected with that cause; with no failing check it is performed. -/
theorem guarded_next {cs : List Cause} {k : State → Result} {s t : State} (h : guarded cs k s = .next t) :
    (∃ c ∈ cs, c.fails s = true ∧ t = s.reject c) ∨ ((∀ c ∈ cs, c.fails s = false) ∧ k s = .next t) := by
  induction cs with
  | nil => exact .inr ⟨by simp, h⟩
  | cons c cs ih =>
    rw [guarded_cons] at h
    split at h
    · next hc =>
      injection h with h
      exact .inl ⟨c, by simp, hc, h.symm⟩
    · next hc =>
      rcases ih h with ⟨c', hm, hf, ht⟩ | ⟨hall, hk⟩
      · exact .inl ⟨c', by simp [hm], hf, ht⟩
      · exact .inr ⟨by simpa [hc] using hall, hk⟩

/-! ### Reads -/

/-- A read that goes on answers what its continuation answers. -/
@[simp] theorem orFault_ok {α : Type} (x : α) (k : α → Result) : orFault (.ok x) k = k x := rfl

@[simp] theorem orFault_error {α : Type} (f : Fault) (k : α → Result) : orFault (.error f) k = .fault f := rfl

/-- A read and its continuation answer next only through the value read. -/
theorem orFault_next {α : Type} {r : Except Fault α} {k : α → Result} {t : State} (h : orFault r k = .next t) :
    ∃ x, r = .ok x ∧ k x = .next t := by
  cases r with
  | ok x => exact ⟨x, rfl, h⟩
  | error f => simp at h

/-- R22: the round counter is a round number exactly below 64. -/
theorem readRound_ok {s : State} {j : Fin 64} (hj : s.j.toNat = j.val) : s.readRound = .ok j := by
  have hlt : s.j.toNat < 64 := by omega
  simp only [State.readRound, dif_pos hlt]
  congr 1
  exact Fin.ext hj

theorem readRound_error {s : State} (hj : 64 ≤ s.j.toNat) : s.readRound = .error .noSuchRound := by
  simp only [State.readRound, dif_neg (Nat.not_lt.2 hj)]

theorem readRound_eq_ok {s : State} {j : Fin 64} (h : s.readRound = .ok j) : s.j.toNat = j.val := by
  unfold State.readRound at h
  split at h
  · injection h with h
    rw [← h]
  · simp at h

end Sys2Proof.Machine
end

