-- ==== Sys2Proof/Laws/Engine.lean ====
section
/-! SUPPORT. The engine's steps, said once each: the state after LOAD, ROUND and ACCUM, and that they complete but in
ROUND with j of 64 or more. -/

namespace Sys2Proof.Machine

open Sys2Proof

/-! ### The advance (R83) -/

@[simp] theorem State.advance_h (s : State) : s.advance.h = s.h := by
  simp only [State.advance]; split <;> simp only [State.toPhase_h, State.writeJ_h]

@[simp] theorem State.advance_hvalid (s : State) : s.advance.hvalid = s.hvalid := by
  simp only [State.advance]; split <;> simp only [State.toPhase_hvalid, State.writeJ_hvalid]

@[simp] theorem State.advance_m (s : State) : s.advance.m = s.m := by
  simp only [State.advance]; split <;> simp only [State.toPhase_m, State.writeJ_m]

@[simp] theorem State.advance_mmask (s : State) : s.advance.mmask = s.mmask := by
  simp only [State.advance]; split <;> simp only [State.toPhase_mmask, State.writeJ_mmask]

@[simp] theorem State.advance_w (s : State) : s.advance.w = s.w := by
  simp only [State.advance]; split <;> simp only [State.toPhase_w, State.writeJ_w]

@[simp] theorem State.advance_v (s : State) : s.advance.v = s.v := by
  simp only [State.advance]; split <;> simp only [State.toPhase_v, State.writeJ_v]

@[simp] theorem State.advance_err (s : State) : s.advance.err = s.err := by
  simp only [State.advance]; split <;> simp only [State.toPhase_err, State.writeJ_err]

@[simp] theorem State.advance_bcnt (s : State) : s.advance.bcnt = s.bcnt := by
  simp only [State.advance]; split <;> simp only [State.toPhase_bcnt, State.writeJ_bcnt]

@[simp] theorem State.advance_result (s : State) : s.advance.result = s.result := by
  simp only [State.advance]; split <;> simp only [State.toPhase_result, State.writeJ_result]

@[simp] theorem State.advance_inputs (s : State) : s.advance.inputs = s.inputs := by
  simp only [State.advance]; split <;> simp only [State.toPhase_inputs, State.writeJ_inputs]

@[simp] theorem State.advance_j (s : State) : s.advance.j = s.j + 1 := by
  simp only [State.advance]; split <;> simp only [State.toPhase_j, State.writeJ_j]

@[simp] theorem State.advance_held_m (s : State) : s.advance.held.m = s.held.m := by
  simp only [State.advance]; split <;> simp only [State.toPhase_held, State.writeJ_held_m]

@[simp] theorem State.advance_held_w (s : State) : s.advance.held.w = s.held.w := by
  simp only [State.advance]; split <;> simp only [State.toPhase_held, State.writeJ_held_w]

@[simp] theorem State.advance_held_v (s : State) : s.advance.held.v = s.held.v := by
  simp only [State.advance]; split <;> simp only [State.toPhase_held, State.writeJ_held_v]

@[simp] theorem State.advance_held_j (s : State) : s.advance.held.j = true := by
  simp only [State.advance]; split <;> simp only [State.toPhase_held, State.writeJ_held_j]

@[simp] theorem State.advance_phase (s : State) :
    s.advance.phase = if s.j + 1 = 64 then .accum else s.phase := by
  have e : s.advance = if s.j + 1 = 64 then (s.writeJ (s.j + 1)).toPhase .accum else s.writeJ (s.j + 1) := rfl
  rw [e]
  split <;> rfl

/-- R82, R83: the counter counts up within its 7 bits. -/
theorem nextJ_toNat {s : State} {j : Fin 64} (h : s.j.toNat = j.val) : (s.j + 1).toNat = j.val + 1 := by
  have := j.isLt
  rw [BitVec.toNat_add, h]
  simp
  omega

/-- R83: the counter reaches 64 exactly after round 63. -/
theorem nextJ_eq_64 {s : State} {j : Fin 64} (h : s.j.toNat = j.val) : s.j + 1 = 64 ↔ j.val = 63 := by
  rw [← BitVec.toNat_inj, nextJ_toNat h]
  simp

/-! ### The expander (R81) -/

@[simp] theorem expand_held_v (s : State) (j : Fin 64) : (expand s j).held.v = s.held.v := by
  unfold expand; split <;> simp

@[simp] theorem expand_v (s : State) (j : Fin 64) : (expand s j).v = s.v := by
  unfold expand; split <;> simp

@[simp] theorem expand_j (s : State) (j : Fin 64) : (expand s j).j = s.j := by
  unfold expand; split <;> simp

@[simp] theorem expand_h (s : State) (j : Fin 64) : (expand s j).h = s.h := by
  unfold expand; split <;> simp

@[simp] theorem expand_hvalid (s : State) (j : Fin 64) : (expand s j).hvalid = s.hvalid := by
  unfold expand; split <;> simp

@[simp] theorem expand_m (s : State) (j : Fin 64) : (expand s j).m = s.m := by
  unfold expand; split <;> simp

@[simp] theorem expand_mmask (s : State) (j : Fin 64) : (expand s j).mmask = s.mmask := by
  unfold expand; split <;> simp

@[simp] theorem expand_phase (s : State) (j : Fin 64) : (expand s j).phase = s.phase := by
  unfold expand; split <;> simp

@[simp] theorem expand_err (s : State) (j : Fin 64) : (expand s j).err = s.err := by
  unfold expand; split <;> simp

@[simp] theorem expand_bcnt (s : State) (j : Fin 64) : (expand s j).bcnt = s.bcnt := by
  unfold expand; split <;> simp

@[simp] theorem expand_result (s : State) (j : Fin 64) : (expand s j).result = s.result := by
  unfold expand; split <;> simp

@[simp] theorem expand_inputs (s : State) (j : Fin 64) : (expand s j).inputs = s.inputs := by
  unfold expand; split <;> simp

@[simp] theorem expand_held_m (s : State) (j : Fin 64) : (expand s j).held.m = s.held.m := by
  unfold expand; split <;> simp

@[simp] theorem expand_held_j (s : State) (j : Fin 64) : (expand s j).held.j = s.held.j := by
  unfold expand; split <;> simp

/-- R81: the schedule after the expander: W[j] is the word of round j, the rest is unchanged. -/
theorem expand_w_getElem (s : State) (j k : Fin 64) :
    (expand s j).w[k.val] = if k = j then roundWord s j else s.w[k.val] := by
  unfold expand
  by_cases hj : 16 ≤ j.val
  · simp only [if_pos hj, State.writeW_w, Vector.getElem_set]
    by_cases hk : k = j
    · simp [hk]
    · have : ¬ j.val = k.val := fun e => hk (Fin.ext e.symm)
      simp [hk, this]
  · by_cases hk : k = j
    · subst hk; simp [hj, roundWord]
    · simp [hj, hk]

/-- R81: the marks of the schedule after the expander, which writes W[j] for j >= 16 only. -/
theorem expand_held_w_getElem (s : State) (j k : Fin 64) :
    (expand s j).held.w[k.val] = if k = j ∧ 16 ≤ j.val then true else s.held.w[k.val] := by
  unfold expand
  by_cases hj : 16 ≤ j.val
  · simp only [if_pos hj, State.writeW_held_w, Vector.getElem_set]
    by_cases hk : k = j
    · simp [hk, hj]
    · have : ¬ j.val = k.val := fun e => hk (Fin.ext e.symm)
      simp [hk, this]
  · simp [hj]

/-! ### The steps -/

/-- R80: the state after LOAD. -/
def afterLoad (s : State) : State :=
  (((s.writeScheduleHead s.m).writeWorking (workingOfHash s.h)).writeJ 0).toPhase .round

/-- R84: the state after the ROUND step with counter j: the round on the word of round j, whether the expander has just written
it or LOAD did. -/
def afterRound (s : State) (j : Fin 64) : State :=
  ((expand s j).writeWorking (roundUpdate s.v (romK j) (roundWord s j))).advance

/-- R85: the state after ACCUM. -/
def afterAccum (s : State) : State :=
  { s.writeHash (accumulate s.h s.v) with bcnt := add32 s.bcnt 1 }.toPhase .idle

/-- R80: LOAD always completes. -/
theorem loadStep_eq (s : State) : loadStep s = .next (afterLoad s) := rfl

/-- R82, R84: the round reads the word of round j. -/
theorem mix_expand (s : State) (j : Fin 64) :
    (expand s j).mix j = (expand s j).writeWorking (roundUpdate s.v (romK j) (roundWord s j)) := by
  have hx : (expand s j).w[j.val] = roundWord s j := by simp [expand_w_getElem s j j]
  simp only [State.mix, hx, expand_v]

/-- R84: ROUND completes where the counter is a round number. -/
theorem roundStep_eq {s : State} {j : Fin 64} (hj : s.j.toNat = j.val) : roundStep s = .next (afterRound s j) := by
  simp only [roundStep, readRound_ok hj, orFault_ok, mix_expand, afterRound]

/-- Log 6: ROUND stops where it is none. -/
theorem roundStep_fault {s : State} (hj : 64 ≤ s.j.toNat) : roundStep s = .fault .noSuchRound := by
  simp only [roundStep, readRound_error hj, orFault_error]

/-- R85: ACCUM always completes. -/
theorem accumStep_eq (s : State) : accumStep s = .next (afterAccum s) := rfl

/-- R84: ROUND completes only with a round number. -/
theorem roundStep_next {s t : State} (h : roundStep s = .next t) : ∃ j : Fin 64, s.j.toNat = j.val ∧ t = afterRound s j := by
  obtain ⟨j, ej, -⟩ := orFault_next h
  have hj := readRound_eq_ok ej
  rw [roundStep_eq hj] at h
  injection h with h
  exact ⟨j, hj, h.symm⟩

/-- R79: what an engine turn that answers next did. -/
theorem engineStep_next {s t : State} (h : engineStep s = .next t) :
    (s.phase = .idle ∧ t = s) ∨
    (s.phase = .load ∧ t = afterLoad s) ∨
    (s.phase = .round ∧ ∃ j : Fin 64, s.j.toNat = j.val ∧ t = afterRound s j) ∨
    (s.phase = .accum ∧ t = afterAccum s) := by
  unfold engineStep at h
  split at h
  · next hp => injection h with h; exact .inl ⟨hp, h.symm⟩
  · next hp => injection h with h; exact .inr (.inl ⟨hp, h.symm⟩)
  · next hp => exact .inr (.inr (.inl ⟨hp, roundStep_next h⟩))
  · next hp => injection h with h; exact .inr (.inr (.inr ⟨hp, h.symm⟩))

end Sys2Proof.Machine
end

