-- ==== Sys2Proof/Laws/Step.lean ====
section
/-! SUPPORT. What a meaning, a turn and a step can do, said once: every command either is rejected or has its one effect, and a
step is the first turn of the schedule. -/

namespace Sys2Proof.Machine

open Sys2Proof

/-- R100, R101: what a command that answers next did: it was rejected with some cause, or it had its effect. -/
theorem exec_next {i : Instr} {s t : State} (h : exec i s = .next t) :
    (∃ c, t = s.reject c ∧ (c = .illegal ∨ c.fails s = true)) ∨
    (i = .nop ∧ t = s.respond 0) ∨
    (i = .init ∧ s.phase = .idle ∧ t = s.beginHash.respond 0) ∨
    (∃ idx word, i = .wrm idx word ∧ s.phase = .idle ∧ t = (s.writeM (blockIndex idx) word).respond 0) ∨
    (i = .compress ∧ s.phase = .idle ∧ s.hvalid = true ∧ s.mmask = 0xFFFF ∧ t = s.beginBlock.respond 0) ∨
    (∃ idx, ∃ k : Fin 8, i = .rdh idx ∧ hashIndex idx = some k ∧ s.phase = .idle ∧ s.hvalid = true ∧
      t = s.respond s.h[k.val]) ∨
    (i = .rdstat ∧ t = s.respond s.status) ∨
    (i = .rdcnt ∧ s.phase = .idle ∧ t = s.respond s.bcnt) := by
  cases i with
  | nop => injection h with h; exact .inr (.inl ⟨rfl, h.symm⟩)
  | init =>
    simp only [exec, execInit] at h
    rcases guarded_next h with ⟨c, -, hf, rfl⟩ | ⟨hc, h⟩
    · exact .inl ⟨c, rfl, .inr hf⟩
    · injection h with h; simp at hc; simp [hc, ← h]
  | wrm idx word =>
    simp only [exec, execWrm] at h
    rcases guarded_next h with ⟨c, -, hf, rfl⟩ | ⟨hc, h⟩
    · exact .inl ⟨c, rfl, .inr hf⟩
    · injection h with h; simp at hc
      exact .inr (.inr (.inr (.inl ⟨idx, word, rfl, hc, h.symm⟩)))
  | compress =>
    simp only [exec, execCompress] at h
    rcases guarded_next h with ⟨c, -, hf, rfl⟩ | ⟨hc, h⟩
    · exact .inl ⟨c, rfl, .inr hf⟩
    · injection h with h; simp at hc; simp [hc, ← h]
  | rdh idx =>
    simp only [exec, execRdh] at h
    split at h
    · injection h with h; exact .inl ⟨.illegal, h.symm, .inl rfl⟩
    next k hk =>
    rcases guarded_next h with ⟨c, -, hf, rfl⟩ | ⟨hc, h⟩
    · exact .inl ⟨c, rfl, .inr hf⟩
    · simp at hc
      injection h with h
      exact .inr (.inr (.inr (.inr (.inr (.inl ⟨idx, k, rfl, hk, hc.1, hc.2, h.symm⟩)))))
  | rdstat => injection h with h; simp [h]
  | rdcnt =>
    simp only [exec, execRdcnt] at h
    rcases guarded_next h with ⟨c, -, hf, rfl⟩ | ⟨hc, h⟩
    · exact .inl ⟨c, rfl, .inr hf⟩
    · injection h with h; simp at hc; simp [hc, ← h]

/-- R53: a transaction always completes: every command answers a next state, in every state. -/
theorem exec_answers_next (i : Instr) (s : State) : ∃ t, exec i s = .next t := by
  cases i <;>
    simp only [exec, execNop, execInit, execWrm, execCompress, execRdstat, execRdcnt, execRdh, guarded_cons, guarded_nil]
  case nop => exact ⟨_, rfl⟩
  case init => split <;> exact ⟨_, rfl⟩
  case wrm => split <;> exact ⟨_, rfl⟩
  case compress => split <;> [exact ⟨_, rfl⟩; (split <;> [exact ⟨_, rfl⟩; (split <;> exact ⟨_, rfl⟩)])]
  case rdh =>
    split
    · exact ⟨_, rfl⟩
    split
    · exact ⟨_, rfl⟩
    split
    · exact ⟨_, rfl⟩
    · exact ⟨_, rfl⟩
  case rdstat => exact ⟨_, rfl⟩
  case rdcnt => split <;> exact ⟨_, rfl⟩

/-- R53, R58: so does every transaction, whatever its word. -/
theorem transact_answers_next (c : Command) (s : State) : ∃ t, transact c s = .next t := by
  unfold transact
  split
  · exact ⟨_, rfl⟩
  · exact exec_answers_next _ s

/-- R57: what a transaction that answers next did. -/
theorem transact_next {c : Command} {s t : State} (h : transact c s = .next t) :
    (∃ e, decode c = .error e ∧ t = s.reject .illegal) ∨ (∃ i, decode c = .ok i ∧ exec i s = .next t) := by
  unfold transact at h
  split at h
  · next e he => injection h with h; exact .inl ⟨e, he, h.symm⟩
  · next i hi => exact .inr ⟨i, hi, h⟩

/-- R48, R104: what a turn that answers next did. -/
theorem takeTurn_next {x : Turn} {s t : State} (h : takeTurn x s = .next t) :
    (x.reset = true ∧ t = s.resetNow) ∨
    (x.reset = false ∧ ∃ c, x.event = .transaction c ∧ transact c s = .next t) ∨
    (x.reset = false ∧ x.event = .engine ∧ engineStep s = .next t) := by
  unfold takeTurn at h
  split at h
  · next hr => injection h with h; exact .inl ⟨hr, h.symm⟩
  · next hr =>
    simp only [Bool.not_eq_true] at hr
    split at h
    · next c hc => exact .inr (.inl ⟨hr, c, hc, h⟩)
    · next he => exact .inr (.inr ⟨hr, he, h⟩)

@[simp] theorem takeTurn_host (c : Command) (s : State) : takeTurn (hostTurn c) s = transact c s := rfl

@[simp] theorem takeTurn_engine (s : State) : takeTurn engineTurn s = engineStep s := rfl

@[simp] theorem takeTurn_reset (e : Event) (s : State) : takeTurn ⟨e, true⟩ s = .next s.resetNow := rfl

/-- A step with a schedule is its first turn. -/
theorem step_cons {s : State} {x : Turn} {rest : List Turn} (h : s.inputs = x :: rest) :
    step s = takeTurn x (s.withInputs rest) := by simp [step, State.nextTurn, h]

/-- A step without a schedule is the engine's turn. -/
theorem step_nil {s : State} (h : s.inputs = []) : step s = engineStep s := by simp [step, State.nextTurn, h]

/-- Turns taken one after another. -/
@[simp] theorem runTurns_nil (s : State) : runTurns [] s = .next s := rfl

theorem runTurns_cons_next {x : Turn} {xs : List Turn} {s s' : State} (h : takeTurn x s = .next s') :
    runTurns (x :: xs) s = runTurns xs s' := by simp [runTurns, h]

/-- A list of turns answers next exactly through the states between. -/
theorem runTurns_append_next {xs ys : List Turn} {s s' : State} (h : runTurns xs s = .next s') :
    runTurns (xs ++ ys) s = runTurns ys s' := by
  induction xs generalizing s with
  | nil => injection h with h; simp [h]
  | cons x xs ih =>
    unfold runTurns at h
    split at h
    · next s1 h1 => rw [List.cons_append, runTurns_cons_next h1]; exact ih h
    · simp at h
    · simp at h

/-- The run along an infinite sequence of turns, one turn at a time. -/
@[simp] theorem coreAlong_zero (turns : Nat → Turn) (s : State) : coreAlong turns s 0 = .next s := rfl

theorem coreAlong_succ {turns : Nat → Turn} {s t : State} {n : Nat} (h : coreAlong turns s n = .next t) :
    coreAlong turns s (n + 1) = runTurns [turns n] t := by
  simp only [coreAlong, List.range_succ, List.map_append, List.map_cons, List.map_nil] at *
  exact runTurns_append_next h

end Sys2Proof.Machine
end

