-- ==== Sys2Proof/Laws/Driver.lean ====
section
/-! SUPPORT. What a move of a host and its core can do, said once, and runs of moves one move at a time. -/

namespace Sys2Proof.Machine

open Sys2Proof

@[simp] theorem Driver.finish_todo (d : Driver) (e : DriverStatus) : (d.finish e).todo = d.todo := rfl
@[simp] theorem Driver.finish_hw (d : Driver) (e : DriverStatus) : (d.finish e).hw = [] := rfl
@[simp] theorem Driver.finish_status (d : Driver) (e : DriverStatus) : (d.finish e).status = e := rfl

/-- A move of the core alone answers next exactly through the core's turn. -/
theorem moveCore_next {r r' : Rig} {t : Turn} {k : State → Rig} (h : r.moveCore t k = .next r') :
    ∃ s, takeTurn t r.core = .next s ∧ r' = k s := by
  unfold Rig.moveCore at h
  split at h
  · next s hs => injection h with h; exact ⟨s, hs, h.symm⟩
  · simp at h
  · simp at h

/-- R48, R95, R114: what a move that answers next did: the engine's step, a reset of the core, nothing (a driver that has ended,
or has no line left), a line of the driver with its transaction, or its return. -/
theorem move_next {a : Agent} {r r' : Rig} (h : r.move a = .next r') :
    (a = .engine ∧ ∃ s, engineStep r.core = .next s ∧ r' = ⟨r.driver, s⟩) ∨
    (a = .reset ∧ r' = ⟨r.driver, r.core.resetNow⟩) ∨
    (a = .host ∧ (r.driver.status ≠ .running ∨ r.driver.todo = []) ∧ r' = r) ∨
    (a = .host ∧ r.driver.status = .running ∧ ∃ op rest, r.driver.todo = op :: rest ∧
      ((∃ c s, op.command = some c ∧ transact c r.core = .next s ∧ r' = ⟨r.driver.observe op rest s.result, s⟩) ∨
       (op.command = none ∧ r' = ⟨r.driver.observe op rest 0, r.core⟩))) := by
  cases a with
  | engine =>
    obtain ⟨s, hs, rfl⟩ := moveCore_next h
    exact .inl ⟨rfl, s, hs, rfl⟩
  | reset =>
    injection h with h
    exact .inr (.inl ⟨rfl, h.symm⟩)
  | host =>
    simp only [Rig.move, Rig.hostMove] at h
    split at h
    · next op rest hst htodo =>
      refine .inr (.inr (.inr ⟨rfl, hst, op, rest, htodo, ?_⟩))
      split at h
      · next c hc =>
        obtain ⟨s, hs, rfl⟩ := moveCore_next h
        exact .inl ⟨c, s, hc, hs, rfl⟩
      · next hc => injection h with h; exact .inr ⟨hc, h.symm⟩
    · next hno =>
      injection h with h
      refine .inr (.inr (.inl ⟨rfl, ?_, h.symm⟩))
      cases htodo : r.driver.todo with
      | nil => exact .inr rfl
      | cons op rest => exact .inl fun hst => hno op rest hst htodo

@[simp] theorem Rig.run_nil (r : Rig) : Rig.run [] r = .next r := rfl

theorem Rig.run_cons_next {a : Agent} {as : List Agent} {r r' : Rig} (h : r.move a = .next r') :
    Rig.run (a :: as) r = Rig.run as r' := by simp [Rig.run, h]

/-- A list of moves answers next exactly through the states between. -/
theorem Rig.run_append_next {as bs : List Agent} {r r' : Rig} (h : Rig.run as r = .next r') :
    Rig.run (as ++ bs) r = Rig.run bs r' := by
  induction as generalizing r with
  | nil => injection h with h; simp [h]
  | cons a as ih =>
    unfold Rig.run at h
    split at h
    · next r1 h1 => rw [List.cons_append, Rig.run_cons_next h1]; exact ih h
    · simp at h
    · simp at h

/-- The run along an infinite sequence of moves, one move at a time. -/
@[simp] theorem rigAlong_zero (moves : Nat → Agent) (r : Rig) : rigAlong moves r 0 = .next r := rfl

theorem rigAlong_succ {moves : Nat → Agent} {r t : Rig} {n : Nat} (h : rigAlong moves r n = .next t) :
    rigAlong moves r (n + 1) = Rig.run [moves n] t := by
  simp only [rigAlong, List.range_succ, List.map_append, List.map_cons, List.map_nil] at *
  exact Rig.run_append_next h

end Sys2Proof.Machine
end

