-- ==== Sys2Proof/Laws/PerInstr.lean ====
section
/-! SUPPORT. Statements for all instructions, one lemma for each constructor of Instr: the reserved field of an encoded command
is zero, and its opcode field is not a reserved opcode (30_encoding.md rules R54, R56). -/

namespace Sys2Proof.Laws.ReservedZero

open Sys2Proof

/-- R54: RSV is 0b00000000 in every encoded command, and OP is one of 0x0..0x6 (R56). -/
def Statement (i : Instr) : Prop := (encode i).rsv = 0 ∧ (encode i).op.toNat ≤ 6

theorem nop : Statement .nop := ⟨by decide, by decide⟩

theorem init : Statement .init := ⟨by decide, by decide⟩

theorem wrm (idx : BitVec 4) (word : Word) : Statement (.wrm idx word) := by
  have h : ∀ x : BitVec 4, (packCommand 0x2 0 x).extractLsb' 4 8 = 0 ∧
      ((packCommand 0x2 0 x).extractLsb' 12 4).toNat ≤ 6 := by decide
  exact h idx

theorem compress : Statement .compress := ⟨by decide, by decide⟩

theorem rdh (idx : BitVec 4) : Statement (.rdh idx) := by
  have h : ∀ x : BitVec 4, (packCommand 0x4 0 x).extractLsb' 4 8 = 0 ∧
      ((packCommand 0x4 0 x).extractLsb' 12 4).toNat ≤ 6 := by decide
  exact h idx

theorem rdstat : Statement .rdstat := ⟨by decide, by decide⟩

theorem rdcnt : Statement .rdcnt := ⟨by decide, by decide⟩

end Sys2Proof.Laws.ReservedZero
end

