-- ==== Sys2Proof/Tests/Slice0.lean ====
section
/-! SUPPORT. The model's own tests: the WellFormed smoke, the decoding of words written out from 30_encoding.md, one-step tests
whose expected values are those of 95_test_vectors.md (its vector is named in each comment), and a witness for the hypotheses of
every statement of Certificates/Slice0/Obligations.lean that has some. -/

namespace Sys2Proof.Tests

open Sys2Proof Sys2Proof.Machine

/-! ### States -/

/-- S0 of 95_test_vectors.md V7: just after reset. -/
def s0 : State := State.reset

/-- S1: after an accepted INIT. -/
def s1 : State := { s0 with h := romIV, hvalid := true }

/-- An idle core with H = IV, holding a whole block. -/
def ready (block : Vector Word 16) : State :=
  { s1 with m := block, mmask := 0xFFFF, held := { s0.held with m := Vector.replicate 16 true } }

/-- S2: after WRM 0..15 of zeros. -/
def s2 : State := ready (Vector.replicate 16 0)

/-- S3: after an accepted COMPRESS. -/
def s3 : State := { s2 with phase := .load, mmask := 0 }

/-- The "abc" block of V3. -/
def abcBlock : Vector Word 16 := #v[0x61626380, 0, 0, 0, 0, 0, 0, 0, 0, 0, 0, 0, 0, 0, 0, 0x18]

/-- A core in ROUND with counter j, W[0..15] the "abc" block, a..h = IV, every register holding a value. -/
def inRound (j : BitVec 7) : State :=
  { ready abcBlock with
    mmask := 0, phase := .round, j := j, v := workingOfHash romIV, w := withHead abcBlock (Vector.replicate 64 0)
    held := ⟨Vector.replicate 16 true, Vector.replicate 64 true, true, true⟩ }

/-- A core in ACCUM after the last row of V5. -/
def inAccum : State :=
  { inRound 64 with
    phase := .accum
    v := ⟨0x506e3058, 0xd39a2165, 0x04d24d6c, 0xb85e2ce9, 0x5ef50f24, 0xfb121210, 0x948d25b6, 0x961f4894⟩ }

/-- What the host sees of a transaction: its result, and STATUS after it. -/
def seen (r : Result) : Option (Word × Word) := (nextState? r).map fun t => (t.result, t.status)

/-! ### WellFormed -/

theorem test_wf_refuses_rdh_8 : Instr.wf (.rdh 8) = false := by decide
theorem test_wf_accepts_rdh_7 : Instr.wf (.rdh 7) = true := by decide
theorem test_wf_accepts_wrm_15 : Instr.wf (.wrm 15 0) = true := by decide

/-! ### Decoding: the words of R56, bit by bit (V8) -/

theorem test_decode_nop : decode ⟨0b0000000000000000, 0x12345678⟩ = .ok .nop := by decide
theorem test_decode_init : decode ⟨0b0001000000000000, 0⟩ = .ok .init := by decide
theorem test_decode_wrm : decode ⟨0b0010000000001111, 0x18⟩ = .ok (.wrm 15 0x18) := by decide
theorem test_decode_compress : decode ⟨0b0011000000000000, 0⟩ = .ok .compress := by decide
theorem test_decode_rdh : decode ⟨0b0100000000000110, 0⟩ = .ok (.rdh 6) := by decide
theorem test_decode_rdstat : decode ⟨0b0101000000000000, 0⟩ = .ok .rdstat := by decide
theorem test_decode_rdcnt : decode ⟨0b0110000000000000, 0⟩ = .ok .rdcnt := by decide
theorem test_decode_illegal :
    [0x0001, 0x0010, 0x100F, 0x2010, 0x2FF0, 0x3001, 0x4008, 0x400F, 0x4100, 0x5800, 0x6001, 0x7000, 0x8000, 0xF00F,
      0xFFFF].all (fun c => (decode ⟨c, 0⟩).toOption == none) = true := by decide
theorem test_table_word_keeps_operand : decodeTableWord 48 0xDEADBEEF2003 = some (.wrm 3 0xDEADBEEF) := by decide
theorem test_table_word_short : decodeTableWord 16 0xDEADBEEF2003 = some (.wrm 3 0) := by decide
theorem test_fetch_word_runs_first : seen (step (s1.withFetchWord 16 0x4007)) = some (0x5BE0CD19, 0x2) := by decide

/-! ### The commands (V7) -/

/-- CV1. -/
theorem test_nop : seen (transact ⟨0x0000, 0x12345678⟩ s0) = some (0, 0) := by decide
/-- CV17. -/
theorem test_nop_busy : seen (transact ⟨0x0000, 0⟩ s3) = some (0, 0x3) := by decide
/-- CV7, CV16. -/
theorem test_init : nextState? (transact ⟨0x1000, 0⟩ s0) = some s1 ∧
    seen (transact ⟨0x1000, 0⟩ s2) = some (0, 0x2) := by decide
/-- CV19. -/
theorem test_init_busy : seen (transact ⟨0x1000, 0⟩ s3) = some (0, 0x203) := by decide
/-- CV6. -/
theorem test_wrm : seen (transact ⟨0x2003, 0xDEADBEEF⟩ s0) = some (0, 0x00080000) ∧
    (nextState? (transact ⟨0x2003, 0xDEADBEEF⟩ s0)).map (fun t => (t.m[3], t.m[4])) = some (0xDEADBEEF, 0) := by decide
/-- CV20. -/
theorem test_wrm_busy : seen (transact ⟨0x2000, 0xFFFFFFFF⟩ s3) = some (0, 0x203) ∧
    (nextState? (transact ⟨0x2000, 0xFFFFFFFF⟩ s3)).map (·.m) = some s3.m := by decide
/-- CV15. -/
theorem test_compress : nextState? (transact ⟨0x3000, 0⟩ s2) = some s3 := by decide
/-- CV5, CV11, CV21: the three rejections. -/
theorem test_compress_rejected : seen (transact ⟨0x3000, 0⟩ s0) = some (0, 0x400) ∧
    seen (transact ⟨0x3000, 0⟩ s1) = some (0, 0x802) ∧ seen (transact ⟨0x3000, 0⟩ s3) = some (0, 0x203) := by decide
/-- CV9, CV10. -/
theorem test_rdh : seen (transact ⟨0x4000, 0⟩ s1) = some (0x6A09E667, 0x2) ∧
    seen (transact ⟨0x4007, 0⟩ s1) = some (0x5BE0CD19, 0x2) := by decide
/-- CV4, CV8, CV22. -/
theorem test_rdh_rejected : seen (transact ⟨0x4000, 0⟩ s0) = some (0, 0x400) ∧
    seen (transact ⟨0x4008, 0⟩ s0) = some (0, 0x100) ∧ seen (transact ⟨0x4000, 0⟩ s3) = some (0, 0x203) := by decide
/-- CV14, CV18. -/
theorem test_rdstat : seen (transact ⟨0x5000, 0⟩ s2) = some (0xFFFF0006, 0xFFFF0006) ∧
    seen (transact ⟨0x5000, 0⟩ s3) = some (0x3, 0x3) := by decide
/-- CV26, with BCNT = 1. -/
theorem test_rdcnt : seen (transact ⟨0x6000, 0⟩ { s1 with bcnt := 1 }) = some (1, 0x2) := by decide
/-- CV23. -/
theorem test_rdcnt_busy : seen (transact ⟨0x6000, 0⟩ s3) = some (0, 0x203) := by decide
/-- CV24, CV25. -/
theorem test_illegal_while_busy : seen (transact ⟨0x7000, 0⟩ s3) = some (0, 0x103) ∧
    seen (transact ⟨0x0001, 0⟩ s3) = some (0, 0x103) := by decide

/-! ### The engine (V4, V5) -/

/-- R80: W[0..15] = M, a..h = H, j = 0. -/
theorem test_load : (nextState? (engineStep { ready abcBlock with phase := .load, mmask := 0 })).map
    (fun t => (t.w[0], t.w[15], t.v, t.j, t.phase)) =
      some (0x61626380, 0x18, workingOfHash romIV, 0, .round) := by decide
/-- V5, the row of j = 0. -/
theorem test_round_0 : (nextState? (engineStep (inRound 0))).map (fun t => (t.v, t.j)) =
    some (⟨0x5d6aebcd, 0x6a09e667, 0xbb67ae85, 0x3c6ef372, 0xfa2a4622, 0x510e527f, 0x9b05688c, 0x1f83d9ab⟩, 1) := by decide
/-- V4, V5, the row of j = 16, from a..h of the row before. -/
theorem test_round_16 : (nextState? (engineStep { inRound 16 with v :=
      ⟨0xb0fa238e, 0xc0645fde, 0xd932eb16, 0x87912990, 0x07590dcd, 0x0b92f20c, 0x745a48de, 0x1e578218⟩ })).map
      (fun t => (t.w[16], t.v.a, t.v.e)) = some (0x61626380, 0x21da9a9b, 0x8034229c) := by decide
/-- R83: after round 63 the engine goes to ACCUM with j = 64. -/
theorem test_round_63 : (nextState? (engineStep (inRound 63))).map (fun t => (t.j, t.phase)) = some (64, .accum) := by decide
/-- V5's last line and CV26. -/
theorem test_accum : (nextState? (engineStep inAccum)).map (fun t => (t.h, t.bcnt, t.phase)) =
    some (#v[0xba7816bf, 0x8f01cfea, 0x414140de, 0x5dae2223, 0xb00361a3, 0x96177a9c, 0xb410ff61, 0xf20015ad], 1, .idle) := by
  decide
/-- V6: BCNT wraps. -/
theorem test_accum_wraps_bcnt :
    (nextState? (engineStep { inAccum with bcnt := 0xFFFFFFFF })).map (·.bcnt) = some 0 := by decide
/-- Log 6: there is no round 64. -/
theorem test_no_round_64 : fault? (engineStep (inRound 64)) = some .noSuchRound := by decide
/-- R80: a LOAD with nothing written since reset takes what M holds. -/
theorem test_load_of_unwritten_block :
    (nextState? (engineStep { s1 with phase := .load })).map (fun t => (t.w[15], t.v.a, t.phase)) =
      some (0, 0x6a09e667, .round) := by decide
/-- R104, R114: reset wins over a command. -/
theorem test_reset_wins : nextState? (takeTurn ⟨.transaction ⟨0x2003, 7⟩, true⟩ (inRound 5)) = some s0 := by decide

/-! ### Datapath and block function (V2, V4, V6) -/

theorem test_sigmas : (smallSigma0 0x12345678, smallSigma1 0x12345678, bigSigma0 0x12345678, bigSigma1 0x12345678) =
    (0xe7fce6ee, 0xa1f78649, 0x66146474, 0x3561abda) := by decide
theorem test_rotr_shr : (rotr 0x12345678 7, shr 0x12345678 7, rotr 1 31) = (0xf02468ac, 0x002468ac, 2) := by decide
theorem test_choose_majority_add : (choose 0xff00ff00 0x12345678 0x9abcdef0, majority 0xf0f0f0f0 0xff00ff00 0xffff0000,
    add32 0x6a09e667 0xbb67ae85) = (0x12bc56f0, 0xfff0f000, 0x257194ec) := by decide
set_option maxRecDepth 100000 in
/-- V4. -/
theorem test_schedule : (messageSchedule abcBlock)[63] = 0x12b1edeb := by decide
set_option maxRecDepth 100000 in
/-- V6, its third row. -/
theorem test_compress_zeros : compress (Vector.replicate 8 0) (Vector.replicate 16 0) =
    #v[0x7ca51614, 0x425c3ba8, 0xce54dd2f, 0xc2020ae7, 0xb6e574d1, 0x98136d0f, 0xae7e26cc, 0xbf0be7a6] := by decide

/-! ### Host functions (V3, V9, R62, R97) -/

theorem test_zero_counts : [0, 3, 55, 56, 63, 64, 119, 120].map zeroCount = [55, 52, 0, 63, 56, 55, 0, 63] := by decide
theorem test_block_counts : [0, 3, 55, 56, 63, 64, 119, 120].map blockCount = [1, 1, 1, 2, 2, 2, 2, 3] := by decide
theorem test_blocks_of_abc : messageBlocks [0x61, 0x62, 0x63] = [abcBlock] := by decide
set_option maxRecDepth 100000 in
/-- V9: "abb". -/
theorem test_hash_abb : (messageHash [0x61, 0x62, 0x62]).map (·.take 4) = some [0x71, 0x5e, 0xdf, 0x8b] := by decide
theorem test_hex_text : hexText [0xba, 0x78, 0x05] = ['b', 'a', '7', '8', '0', '5'] := by decide
theorem test_assemble_block_line : (assembleLine ['R', 'D', 'D', 'I', 'G']).toOption.map (·.length) = some 8 := by decide
/-- R62 with log 16: a name after the arrow is one token, not a comma and not an arrow. -/
theorem test_assembler_names : (assembleLine ['R', 'D', 'C', 'N', 'T', ' ', '-', '>', ' ', 'c']).toOption =
      some [⟨.issue .rdcnt, some ['c']⟩] ∧
    assembleLine ['R', 'D', 'C', 'N', 'T', ' ', '-', '>', ' ', ','] = .error .malformed ∧
    assembleLine ['R', 'D', 'C', 'N', 'T', ' ', '-', '>', ' ', '-', '>'] = .error .malformed := by decide
/-- R104, R114: a reset under a waiting driver. -/
theorem test_rig_reset : Rig.move .reset ⟨Driver.start [] true, inRound 5⟩ = .next ⟨Driver.start [] true, s0⟩ := rfl
theorem test_driver_begins_with_status : Rig.move .host ⟨Driver.start [] true, s0⟩ =
    .next ⟨⟨(driverOps (messageBlocks [])).tail, [], .running⟩, s0⟩ := rfl

/-- R95, R96, C6: the last line returns the digest of the words read and drops them. -/
theorem test_driver_return_drops_the_words : Rig.move .host ⟨⟨[.ret], [0xba7816bf], .running⟩, s0⟩ =
    .next ⟨⟨[], [], .returned [0xba, 0x78, 0x16, 0xbf]⟩, s0⟩ := rfl

/-! ### Witnesses: the hypotheses of the statements can be met -/

theorem witness_idle_states : s0.Inv ∧ s1.Inv ∧ s2.Inv := ⟨by decide, by decide, by decide⟩

theorem witness_busy_states : s3.Inv ∧ (inRound 0).Inv ∧ (inRound 63).Inv ∧ inAccum.Inv :=
  ⟨by decide, by decide, by decide, by decide⟩

theorem witness_DecodeOfEncodeIsTheInstruction : Instr.wf (.rdh 7) = true ∧ Instr.wf (.wrm 15 0xFFFFFFFF) = true := by decide

theorem witness_EncodeOfDecodeIsTheWord : decode ⟨0x200F, 5⟩ = .ok (.wrm 15 5) ∧ decode ⟨0x4007, 5⟩ = .ok (.rdh 7) := by decide

/-- One word for each clause on the fields: RSV, each opcode 0 to 6 with its last legal index, the first reserved opcode; one
that decodes and one that does not. -/
theorem witness_DecoderIsTheSpecsDecoder :
    (0x0010 : BitVec 16).extractLsb' 4 8 ≠ 0 ∧
    [0x0000, 0x1000, 0x200F, 0x3000, 0x4007, 0x5000, 0x6000].map
      (fun c : BitVec 16 => (c.extractLsb' 4 8, c.extractLsb' 12 4)) =
        [(0, 0), (0, 1), (0, 2), (0, 3), (0, 4), (0, 5), (0, 6)] ∧
    ((0x7000 : BitVec 16).extractLsb' 12 4).toNat = 7 ∧
    decode ⟨0x6000, 0⟩ = .ok .rdcnt ∧ decode ⟨0x6001, 0⟩ = .error .indexNotZero := by decide

theorem witness_IllegalWordsAreRejectedWithErrIllegal :
    decode ⟨0x7000, 0⟩ = .error .reservedOpcode ∧ decode ⟨0x0010, 0⟩ = .error .reservedBits ∧
    decode ⟨0x6001, 0⟩ = .error .indexNotZero ∧ decode ⟨0x4008, 0⟩ = .error .hashIndexRange := by decide

/-- One schedule for each clause. -/
theorem witness_StepRunsTheScheduledTurn :
    ((s1.withFetchWord 16 0x4007).inputs = [⟨.transaction ⟨0x4007, 0⟩, false⟩] ∧ decode ⟨0x4007, 0⟩ = .ok (.rdh 7)) ∧
    ((s1.withFetchWord 16 0x4008).inputs = [⟨.transaction ⟨0x4008, 0⟩, false⟩] ∧
      decode ⟨0x4008, 0⟩ = .error .hashIndexRange) ∧
    (s3.withInputs [engineTurn]).inputs = [⟨.engine, false⟩] ∧
    (s3.withInputs [⟨.engine, true⟩]).inputs = [⟨.engine, true⟩] ∧ s3.inputs = [] := by decide

theorem witness_InitBeginsAHashComputation : s0.phase = .idle ∧ s3.phase ≠ .idle := by decide

theorem witness_WrmStoresOneWord : s0.phase = .idle ∧ s3.phase ≠ .idle := by decide

/-- One state for each outcome. -/
theorem witness_CompressStartsABlockCompression :
    (s2.phase = .idle ∧ s2.hvalid = true ∧ s2.mmask = 0xFFFF) ∧ s3.phase ≠ .idle ∧
    (s0.phase = .idle ∧ s0.hvalid = false) ∧ (s1.phase = .idle ∧ s1.hvalid = true ∧ s1.mmask ≠ 0xFFFF) := by decide

/-- One state for each outcome, and the first index that no legal word carries. -/
theorem witness_RdhReturnsOneHashWord :
    (s1.phase = .idle ∧ s1.hvalid = true) ∧ s3.phase ≠ .idle ∧ (s0.phase = .idle ∧ s0.hvalid = false) ∧
    8 ≤ (8 : BitVec 4).toNat := by decide

theorem witness_RdcntReturnsTheBlockCount : s0.phase = .idle ∧ s3.phase ≠ .idle := by decide

theorem witness_InitIsIdempotentAndCompressIsNot :
    (s0.phase = .idle ∧ nextState? (exec .init s0) = some s1) ∧
    (s2.phase = .idle ∧ s2.hvalid = true ∧ s2.mmask = 0xFFFF ∧ nextState? (exec .compress s2) = some s3) ∧
    (s1.phase = .idle ∧ s1.hvalid = s3.hvalid ∧ s1.mmask = s3.mmask) := by decide

/-- One instruction and state for each clause. -/
theorem witness_ChecksAreMadeInTheSpecsOrder :
    decode ⟨0x4008, 0⟩ = .error .hashIndexRange ∧ decode ⟨0x4007, 0⟩ = .ok (.rdh 7) ∧
    (Instr.wf (.wrm 0 0) = true ∧ s3.phase ≠ .idle) ∧
    (Instr.wf (.rdh 7) = true ∧ s0.phase = .idle ∧ s0.hvalid = false) ∧
    (Instr.wf .compress = true ∧ s1.phase = .idle ∧ s1.hvalid = true ∧ s1.mmask ≠ 0xFFFF) ∧
    (s2.phase = .idle ∧ s2.hvalid = true ∧ s2.mmask = 0xFFFF) := by decide

/-- Turns that answer next: a reset, an accepted INIT, an engine step, and a rejection for each cause, the last with its ERR bit
already set. -/
theorem witness_ErrBitsAreStickyAndRejectionsArePrecise :
    (∃ t, takeTurn ⟨.engine, true⟩ s3 = .next t) ∧ (∃ t, takeTurn (hostTurn ⟨0x1000, 0⟩) s0 = .next t) ∧
    (∃ t, takeTurn engineTurn s3 = .next t) ∧
    (decode ⟨0x7000, 0⟩ = .error .reservedOpcode ∧ ∃ t, takeTurn (hostTurn ⟨0x7000, 0⟩) s0 = .next t) ∧
    (decode ⟨0x1000, 0⟩ = .ok .init ∧ s3.phase ≠ .idle ∧ ∃ t, takeTurn (hostTurn ⟨0x1000, 0⟩) s3 = .next t) ∧
    (decode ⟨0x4007, 0⟩ = .ok (.rdh 7) ∧ s0.phase = .idle ∧ s0.hvalid = false ∧
      ∃ t, takeTurn (hostTurn ⟨0x4007, 0⟩) s0 = .next t) ∧
    (decode ⟨0x3000, 0⟩ = .ok .compress ∧ s1.phase = .idle ∧ s1.hvalid = true ∧ s1.mmask ≠ 0xFFFF ∧
      ∃ t, takeTurn (hostTurn ⟨0x3000, 0⟩) { s1 with err := 0b1000 } = .next t) :=
  ⟨⟨_, rfl⟩, ⟨_, rfl⟩, ⟨_, rfl⟩, ⟨by decide, _, rfl⟩, ⟨by decide, by decide, _, rfl⟩, ⟨by decide, rfl, rfl, _, rfl⟩,
    ⟨by decide, rfl, rfl, by decide, _, rfl⟩⟩

/-- An INIT that sets HVALID, and an ACCUM step that changes H. -/
theorem witness_HashStateHasTwoWriters :
    (nextState? (takeTurn (hostTurn ⟨0x1000, 0⟩) s0)).any (fun t => t.hvalid != s0.hvalid) = true ∧
    (nextState? (takeTurn engineTurn inAccum)).any (fun t => t.h != inAccum.h) = true := by decide

/-- A WRM that writes M[15] and sets its bit, and an INIT that clears bits. -/
theorem witness_BlockBufferAndMaskTransitions :
    (nextState? (takeTurn (hostTurn ⟨0x200F, 7⟩) s0)).any
      (fun t => t.m[15] != s0.m[15] && t.mmask.getLsbD 15 && !s0.mmask.getLsbD 15) = true ∧
    (nextState? (takeTurn (hostTurn ⟨0x1000, 0⟩) s2)).any
      (fun t => !t.mmask.getLsbD 0 && s2.mmask.getLsbD 0) = true := by decide

/-- A turn for each clause. -/
theorem witness_BlockCounterTransitions :
    (∃ t, takeTurn ⟨.engine, true⟩ inAccum = .next t) ∧
    (inAccum.phase = .accum ∧ ∃ t, takeTurn engineTurn inAccum = .next t) ∧
    (s3.phase ≠ .accum ∧ ∃ t, takeTurn engineTurn s3 = .next t) ∧
    (s0.phase = .idle ∧ decode ⟨0x1000, 0⟩ = .ok .init ∧ ∃ t, takeTurn (hostTurn ⟨0x1000, 0⟩) s0 = .next t) ∧
    (s3.phase ≠ .idle ∧ ∃ t, takeTurn (hostTurn ⟨0x1000, 0⟩) s3 = .next t) :=
  ⟨⟨_, rfl⟩, ⟨by decide, _, rfl⟩, ⟨by decide, _, rfl⟩, ⟨by decide, by decide, _, rfl⟩, ⟨by decide, _, rfl⟩⟩

/-- A turn for each transition. -/
theorem witness_SequencerTransitions :
    (nextState? (takeTurn ⟨.engine, true⟩ s3)).map (·.phase) = some .idle ∧
    (nextState? (takeTurn (hostTurn ⟨0x3000, 0⟩) s2)).map (·.phase) = some .load ∧
    (nextState? (takeTurn engineTurn s3)).map (·.phase) = some .round ∧
    (nextState? (takeTurn engineTurn (inRound 62))).map (·.phase) = some .round ∧
    (nextState? (takeTurn engineTurn (inRound 63))).map (·.phase) = some .accum ∧
    (nextState? (takeTurn engineTurn inAccum)).map (·.phase) = some .idle ∧
    (nextState? (takeTurn engineTurn s0)).map (·.phase) = some .idle := by decide

theorem witness_HiddenStateIsNeverReturned : ∃ t, transact ⟨0x5000, 0⟩ s3 = .next t := ⟨_, rfl⟩

theorem witness_BusyWindowTransactionsDisturbNothing :
    s3.phase ≠ .idle ∧ decode ⟨0x1000, 0⟩ ≠ .ok .nop ∧ decode ⟨0x1000, 0⟩ ≠ .ok .rdstat := by decide

/-- The two sides of the boundary: ROUND with j = 64, ROUND with j = 63, and a LOAD with nothing written since reset. -/
theorem witness_EngineStopsOnlyBeyondRound63 :
    ((inRound 64).phase = .round ∧ 64 ≤ (inRound 64).j.toNat) ∧ (inRound 63).j.toNat < 64 ∧
    ({ s0 with phase := .load } : State).phase ≠ .round := by decide

theorem witness_LoadStepLoadsScheduleAndWorkingVariables :
    s3.phase = .load := by decide

/-- j = 0, 15, 16 and 63: the ends of both ways of the expander. -/
theorem witness_RoundStepExpandsMixesAndAdvances :
    ∀ j : Fin 64, j = 0 ∨ j = 15 ∨ j = 16 ∨ j = 63 →
      let s := inRound (BitVec.ofNat 7 j.val)
      s.phase = .round ∧ s.j.toNat = j.val := by decide

theorem witness_AccumStepAddsIntoTheHashState :
    inAccum.phase = .accum := by decide

theorem witness_SixtySixEngineStepsLeadBackToIdle : s3.Inv ∧ s3.phase = .load ∧ 65 < 66 := by decide

theorem witness_BusyEngineReachesIdle : (inRound 63).Inv ∧ (inRound 63).inputs = [] := by decide

/-- The engine alone is a fair schedule, from a busy state. -/
theorem witness_FairEngineReachesIdle : s3.Inv ∧ s3.phase ≠ .idle ∧ EngineFair (fun _ => engineTurn) s3 :=
  ⟨by decide, by decide, fun n _ => ⟨n, Nat.le_refl n, rfl⟩⟩

/-- S3 with the "abc" block. -/
def loadsAbc : State := { ready abcBlock with phase := .load, mmask := 0 }

theorem witness_EngineControlIsIndependentOfData :
    s3.Inv ∧ loadsAbc.Inv ∧ s3.phase = loadsAbc.phase ∧ s3.j = loadsAbc.j ∧ s3.m ≠ loadsAbc.m :=
  ⟨by decide, by decide, rfl, rfl, by decide⟩

/-- Polling RDSTAT before the engine's last step. -/
theorem witness_CompressionEqualsTheBlockFunction :
    let between := hostTurn ⟨0x5000, 0⟩ :: List.replicate 65 engineTurn
    s2.Inv ∧ s2.phase = .idle ∧ s2.hvalid = true ∧ s2.mmask = 0xFFFF ∧ (∀ x ∈ between, x.reset = false) ∧
      between.countP (fun x => decide (x.event = .engine)) = 65 := by decide

theorem witness_StepKeepsTheInvariant : s3.Inv ∧ ∃ t, step s3 = .next t := ⟨by decide, _, rfl⟩

theorem witness_StepNeverFaultsUnderTheInvariant : s3.Inv ∧ (inRound 63).Inv ∧ inAccum.Inv :=
  ⟨by decide, by decide, by decide⟩

/-- Runs that end in LOAD, in ROUND on both ways of the expander, and in ACCUM. -/
theorem witness_NoStepReadsARegisterWithoutValue :
    (s2.Inv ∧ (nextState? (runTurns [hostTurn ⟨0x3000, 0⟩] s2)).map (·.phase) = some .load) ∧
    (s3.Inv ∧ (nextState? (runTurns [engineTurn] s3)).map (fun t => (t.phase, t.j)) = some (.round, 0)) ∧
    ((inRound 15).Inv ∧ (nextState? (runTurns [engineTurn] (inRound 15))).map (fun t => (t.phase, t.j)) = some (.round, 16)) ∧
    ((inRound 63).Inv ∧ (nextState? (runTurns [engineTurn] (inRound 63))).map (·.phase) = some .accum) :=
  ⟨⟨by decide, by decide⟩, ⟨by decide, by decide⟩, ⟨by decide, by decide⟩, ⟨by decide, by decide⟩⟩

theorem witness_BcntCountsAccumSteps :
    inAccum.bcnt = BitVec.ofNat 32 0 ∧ ∃ t, runTurns [engineTurn] inAccum = .next t := ⟨by decide, _, rfl⟩

/-- Two cores. -/
def twoCores : Config.Platform := ⟨2, by decide, fun k => k.val⟩

theorem witness_CoresShareNoMutableState :
    let k : Fin twoCores.numInstances := ⟨0, by decide⟩
    let l : Fin twoCores.numInstances := ⟨1, by decide⟩
    k ≠ l ∧ ∃ y z, System.step twoCores k (System.reset twoCores) = .next y ∧ System.step twoCores l y = .next z :=
  ⟨by decide, _, _, rfl, rfl⟩

theorem witness_BlockWordsInAnyOrderGiveTheSameState :
    s1.phase = .idle ∧ (List.finRange 16).reverse.Perm (List.finRange 16) := ⟨by decide, List.reverse_perm _⟩

theorem witness_PaddingIsTheSpecs : (55 + 9 + 0) % 64 = 0 ∧ ([] : List Byte).length < 2 ^ 61 := by decide

theorem witness_PackingIsBigEndian :
    ([1, 2, 3, 4] : List Byte).length = 4 * 1 ∧ 0 < 1 ∧ (messageBlocks [0x61, 0x62, 0x63])[0]? = some abcBlock := by decide

theorem witness_HostRefusesBeforeAnyTransaction :
    2 ^ 61 ≤ (List.replicate (2 ^ 61) (0 : Byte)).length ∧ ([] : List Byte).length < 2 ^ 61 :=
  ⟨by rw [List.length_replicate], by decide⟩

theorem witness_DriverReturnsOnlyTheMessageHash :
    ([0x61] : List Byte).length < 2 ^ 61 ∧ (inRound 5).Inv ∧ ∀ a ∈ [Agent.host, .engine], a ≠ .reset := by decide

theorem witness_DriverUnderOneReset :
    ([0x61] : List Byte).length < 2 ^ 61 ∧ (inRound 5).Inv ∧
      [Agent.host, .reset, .engine].countP (fun a => decide (a = .reset)) ≤ 1 := by decide

/-- Host and engine in turns. -/
def inTurns (k : Nat) : Agent := if k % 2 = 0 then .host else .engine

theorem witness_FairDriverEnds :
    ([0x61] : List Byte).length < 2 ^ 61 ∧ (inRound 5).Inv ∧
      RigEngineFair inTurns ⟨Driver.start [0x61] true, inRound 5⟩ ∧ HostGoesOn inTurns ∧ ∀ k, inTurns k ≠ .reset := by
  refine ⟨by decide, by decide, fun n _ => ⟨2 * n + 1, by omega, ?_⟩, fun n => ⟨2 * n, by omega, ?_⟩, fun k => ?_⟩
  · simp [inTurns]
  · simp [inTurns]
  · unfold inTurns; split <;> simp

theorem witness_EndedDriverHoldsNoHashWords :
    ∃ r : Rig, Rig.run [.engine, .host] ⟨⟨[.ret], List.replicate 8 0x01020304, .running⟩, s0⟩ = .next r ∧
      r.driver.status ≠ .running ∧
      (⟨[.ret], List.replicate 8 0x01020304, .running⟩ : Driver).status = .running := ⟨_, rfl, by decide, rfl⟩

theorem witness_DriverReturnsUnderAlternatingMoves : ([0x61] : List Byte).length < 2 ^ 61 ∧ s0.Inv := by decide

end Sys2Proof.Tests
end

section
/-! Several cores (00_scope.md R9, 10_state.md R36, 60_exceptions.md R111): what a step of a system can do, and the
independence of two cores that follows from it. -/

namespace Sys2Proof.Machine

open Sys2Proof

section
variable {p : Config.Platform} {x y z : System p} {k l : Fin p.numInstances}

/-- A step of a system completes exactly where the stepped core's own step does, and writes that core's entry only. -/
theorem systemStep_next_iff :
    System.step p k x = .next y ↔ ∃ t, step x[k.val] = .next t ∧ y = x.set k.val t := by
  unfold System.step
  cases step x[k.val] <;> simp [eq_comm]

/-- The frame of a step of a system: every other core is as before. -/
theorem systemStep_other (hkl : k ≠ l) (h : System.step p k x = .next y) : y[l.val] = x[l.val] := by
  obtain ⟨t, -, rfl⟩ := systemStep_next_iff.mp h
  exact Vector.getElem_set_ne k.isLt l.isLt (Fin.val_ne_of_ne hkl)

/-- A step of a system is the stepped core's own step. -/
theorem systemStep_own (h : System.step p k x = .next y) : step x[k.val] = .next y[k.val] := by
  obtain ⟨t, ht, rfl⟩ := systemStep_next_iff.mp h
  rw [Vector.getElem_set_self, ht]

/-- Two completing steps of distinct cores complete in the other order too, in the same system: neither core's step reads
or writes the other's entry. -/
theorem systemStep_comm (hkl : k ≠ l) (hk : System.step p k x = .next y) (hl : System.step p l y = .next z) :
    ∃ y', System.step p l x = .next y' ∧ System.step p k y' = .next z := by
  have hly : y[l.val] = x[l.val] := systemStep_other hkl hk
  obtain ⟨t, ht, rfl⟩ := systemStep_next_iff.mp hk
  obtain ⟨u, hu, rfl⟩ := systemStep_next_iff.mp hl
  have hlx : System.step p l x = .next (x.set l.val u) := systemStep_next_iff.mpr ⟨u, hly ▸ hu, rfl⟩
  have hky : (x.set l.val u)[k.val] = x[k.val] := systemStep_other hkl.symm hlx
  exact ⟨_, hlx, systemStep_next_iff.mpr
    ⟨t, by rw [hky, ht], Vector.set_comm t u (Fin.val_ne_of_ne hkl)⟩⟩

end

/-- Settles O44, by the one thing a step of a system can do: write the stepped core's own next state at its index. -/
theorem coresShareNoMutableState : Obligations.CoresShareNoMutableState := by
  intro p x k l hkl
  exact ⟨fun _ hk => ⟨systemStep_other hkl hk, systemStep_own hk⟩, fun _ _ hk hl => systemStep_comm hkl hk hl⟩

end Sys2Proof.Machine
end

section
/-! What a turn can do, said once from the transaction's and the engine's inversion lemmas: every fact about how a field
changes is a case analysis on it (20_memory.md R48). -/

namespace Sys2Proof.Machine

open Sys2Proof

/-- The effect of one turn that answers a next state: reset, one constructor for each way a transaction ends, one for each
engine step (R48, R79, R100, R104). -/
inductive TurnEffect (x : Turn) (s : State) : State → Prop
  | reset (hr : x.reset = true) : TurnEffect x s s.resetNow
  | rejected {c : Command} (hr : x.reset = false) (he : x.event = .transaction c) (cause : Cause) :
      TurnEffect x s (s.reject cause)
  | readout {c : Command} (hr : x.reset = false) (he : x.event = .transaction c) (word : Word) :
      TurnEffect x s (s.respond word)
  | init {c : Command} (hr : x.reset = false) (he : x.event = .transaction c) (hc : decode c = .ok .init)
      (hp : s.phase = .idle) : TurnEffect x s (s.beginHash.respond 0)
  | wrm {c : Command} {idx : BitVec 4} {word : Word} (hr : x.reset = false) (he : x.event = .transaction c)
      (hc : decode c = .ok (.wrm idx word)) (hp : s.phase = .idle) :
      TurnEffect x s ((s.writeM (blockIndex idx) word).respond 0)
  | compress {c : Command} (hr : x.reset = false) (he : x.event = .transaction c) (hc : decode c = .ok .compress)
      (hp : s.phase = .idle) (hv : s.hvalid = true) (hm : s.mmask = 0xFFFF) : TurnEffect x s (s.beginBlock.respond 0)
  | stutter (hr : x.reset = false) (he : x.event = .engine) (hp : s.phase = .idle) : TurnEffect x s s
  | load (hr : x.reset = false) (he : x.event = .engine) (hp : s.phase = .load) : TurnEffect x s (afterLoad s)
  | round (hr : x.reset = false) (he : x.event = .engine) (hp : s.phase = .round) {j : Fin 64}
      (hj : s.j.toNat = j.val) : TurnEffect x s (afterRound s j)
  | accum (hr : x.reset = false) (he : x.event = .engine) (hp : s.phase = .accum) : TurnEffect x s (afterAccum s)

/-- A turn that answers a next state has one of these effects. -/
theorem takeTurn_effect {x : Turn} {s t : State} (h : takeTurn x s = .next t) : TurnEffect x s t := by
  obtain ⟨hr, rfl⟩ | ⟨hr, c, he, h⟩ | ⟨hr, he, h⟩ := takeTurn_next h
  · exact .reset hr
  · obtain ⟨_, -, rfl⟩ | ⟨i, hc, h⟩ := transact_next h
    · exact .rejected hr he .illegal
    obtain ⟨cause, rfl, -⟩ | ⟨-, rfl⟩ | ⟨rfl, hp, rfl⟩ | ⟨idx, word, rfl, hp, rfl⟩ | ⟨rfl, hp, hv, hm, rfl⟩ |
      ⟨idx, k, -, -, -, -, rfl⟩ | ⟨-, rfl⟩ | ⟨-, -, rfl⟩ := exec_next h
    · exact .rejected hr he cause
    · exact .readout hr he 0
    · exact .init hr he hc hp
    · exact .wrm hr he hc hp
    · exact .compress hr he hc hp hv hm
    · exact .readout hr he _
    · exact .readout hr he _
    · exact .readout hr he _
  · obtain ⟨hp, rfl⟩ | ⟨hp, rfl⟩ | ⟨hp, j, hj, rfl⟩ | ⟨hp, rfl⟩ := engineStep_next h
    · exact .stutter hr he hp
    · exact .load hr he hp
    · exact .round hr he hp hj
    · exact .accum hr he hp

/-! ### The turns by their data -/

/-- R48: a turn without reset that carries a transaction is that transaction. -/
theorem takeTurn_transaction {x : Turn} {c : Command} (hr : x.reset = false) (he : x.event = .transaction c) (s : State) :
    takeTurn x s = transact c s := by simp [takeTurn, hr, he]

/-- R57: a word that decodes is executed. -/
theorem transact_ok {c : Command} {i : Instr} (hc : decode c = .ok i) (s : State) : transact c s = exec i s := by
  simp [transact, hc]

/-- R58: a word that does not decode is rejected with ErrIllegal. -/
theorem transact_error {c : Command} {e : DecodeError} (hc : decode c = .error e) (s : State) :
    transact c s = .next (s.reject .illegal) := by
  simp [transact, hc]

/-- R58 (c): a command without an index decodes to itself or not at all. -/
theorem decodeNoIndex_ok {idx : BitVec 4} {i i' : Instr} (h : decodeNoIndex idx i' = .ok i) : i' = i := by
  unfold decodeNoIndex at h
  split at h
  · injection h
  · cases h

/-- R56, R58: what decodes is well formed. -/
theorem decode_wf {c : Command} {i : Instr} (h : decode c = .ok i) : i.wf = true := by
  unfold decode at h
  split at h
  · cases h
  split at h
  · exact decodeNoIndex_ok h ▸ rfl
  · exact decodeNoIndex_ok h ▸ rfl
  · injection h with h; subst h; rfl
  · exact decodeNoIndex_ok h ▸ rfl
  · split at h
    · next hlt => injection h with h; subst h; simpa [Instr.wf] using hlt
    · cases h
  · exact decodeNoIndex_ok h ▸ rfl
  · exact decodeNoIndex_ok h ▸ rfl
  · cases h

/-! ### The commands by their checks (R101) -/

/-- R87: a well-formed RDH names a hash word. -/
theorem hashIndex_eq_some {idx : BitVec 4} (h : idx.toNat < 8) : hashIndex idx = some ⟨idx.toNat, h⟩ := dif_pos h

/-- R101, order 2: while busy every well-formed command but NOP and RDSTAT is rejected with ErrBusy. -/
theorem exec_busy {i : Instr} {s : State} (hw : i.wf = true) (hp : s.phase ≠ .idle) (hn : i ≠ .nop) (hr : i ≠ .rdstat) :
    exec i s = .next (s.reject .busy) := by
  cases i with
  | nop => exact absurd rfl hn
  | rdstat => exact absurd rfl hr
  | rdh idx => simp only [exec, execRdh, hashIndex_eq_some (of_decide_eq_true hw), guarded_busy hp]
  | init | wrm | compress | rdcnt => simp only [exec, execInit, execWrm, execCompress, execRdcnt, guarded_busy hp]

/-- R101, order 3: without a hash state COMPRESS and RDH are rejected with ErrNoInit. -/
theorem exec_noInit {i : Instr} {s : State} (hw : i.wf = true) (hp : s.phase = .idle) (hv : s.hvalid = false)
    (hi : i = .compress ∨ ∃ idx, i = .rdh idx) : exec i s = .next (s.reject .noInit) := by
  obtain rfl | ⟨idx, rfl⟩ := hi
  · simp only [exec, execCompress, guarded_idle hp, guarded_noInit hv]
  · simp only [exec, execRdh, hashIndex_eq_some (of_decide_eq_true hw), guarded_idle hp, guarded_noInit hv]

/-- R101, order 4: without a whole block COMPRESS is rejected with ErrIncomplete. -/
theorem exec_compress_incomplete {s : State} (hp : s.phase = .idle) (hv : s.hvalid = true) (hm : s.mmask ≠ 0xFFFF) :
    exec .compress s = .next (s.reject .incomplete) := by
  simp only [exec, execCompress, guarded_idle hp, guarded_hvalid hv, guarded_incomplete hm]

/-- R76: INIT is accepted while idle. -/
theorem exec_init_idle {s : State} (hp : s.phase = .idle) : exec .init s = .next (s.beginHash.respond 0) := by
  simp only [exec, execInit, guarded_idle hp, guarded_nil]

/-! ### Words and marks of the block buffer (R77) -/

/-- A read of a vector after a write, by the two indexes. -/
theorem set_getElem_fin {α : Type} {n : Nat} (v : Vector α n) (i k : Fin n) (x : α) :
    (v.set i.val x)[k.val] = if k = i then x else v[k.val] := by
  simp [Vector.getElem_set, Fin.ext_iff, eq_comm]

/-- R77: WRM writes one word of M. -/
theorem writeM_m_getElem (s : State) (i k : Fin 16) (x : Word) :
    (s.writeM i x).m[k.val] = if k = i then x else s.m[k.val] := set_getElem_fin s.m i k x

/-- Log 3: WRM sets one mark of M. -/
theorem writeM_held_m_getElem (s : State) (i k : Fin 16) (x : Word) :
    (s.writeM i x).held.m[k.val] = if k = i then true else s.held.m[k.val] := set_getElem_fin s.held.m i k true

/-- R77: WRM sets one bit of MMASK. -/
theorem writeM_mmask_getLsbD (s : State) (i k : Fin 16) (x : Word) :
    (s.writeM i x).mmask.getLsbD k.val = if k = i then true else s.mmask.getLsbD k.val := by
  have hbit : (1#16 <<< i.val).getLsbD k.val = decide (k = i) := by
    rw [← BitVec.twoPow_eq, BitVec.getLsbD_twoPow]
    simp [Fin.ext_iff, eq_comm]
  rw [State.writeM_mmask, BitVec.getLsbD_or, hbit]
  by_cases h : k = i <;> simp [h]

end Sys2Proof.Machine
end

section
/-! The fields after the engine's steps (42_compress_engine.md R80, R84, R85): what each step leaves unchanged, and its PHASE and
j. -/

namespace Sys2Proof.Machine

open Sys2Proof

/-! ### afterLoad -/

@[simp] theorem afterLoad_h (s : State) : (afterLoad s).h = s.h := by simp [afterLoad]
@[simp] theorem afterLoad_hvalid (s : State) : (afterLoad s).hvalid = s.hvalid := by simp [afterLoad]
@[simp] theorem afterLoad_m (s : State) : (afterLoad s).m = s.m := by simp [afterLoad]
@[simp] theorem afterLoad_mmask (s : State) : (afterLoad s).mmask = s.mmask := by simp [afterLoad]
@[simp] theorem afterLoad_err (s : State) : (afterLoad s).err = s.err := by simp [afterLoad]
@[simp] theorem afterLoad_bcnt (s : State) : (afterLoad s).bcnt = s.bcnt := by simp [afterLoad]
@[simp] theorem afterLoad_phase (s : State) : (afterLoad s).phase = .round := by simp [afterLoad]
@[simp] theorem afterLoad_j (s : State) : (afterLoad s).j = 0 := by simp [afterLoad]
@[simp] theorem afterLoad_held_v (s : State) : (afterLoad s).held.v = true := by simp [afterLoad]
@[simp] theorem afterLoad_held_j (s : State) : (afterLoad s).held.j = true := by simp [afterLoad]

/-! ### afterRound -/

@[simp] theorem afterRound_h (s : State) (j : Fin 64) : (afterRound s j).h = s.h := by simp [afterRound]
@[simp] theorem afterRound_hvalid (s : State) (j : Fin 64) : (afterRound s j).hvalid = s.hvalid := by simp [afterRound]
@[simp] theorem afterRound_m (s : State) (j : Fin 64) : (afterRound s j).m = s.m := by simp [afterRound]
@[simp] theorem afterRound_mmask (s : State) (j : Fin 64) : (afterRound s j).mmask = s.mmask := by simp [afterRound]
@[simp] theorem afterRound_err (s : State) (j : Fin 64) : (afterRound s j).err = s.err := by simp [afterRound]
@[simp] theorem afterRound_bcnt (s : State) (j : Fin 64) : (afterRound s j).bcnt = s.bcnt := by simp [afterRound]
@[simp] theorem afterRound_held_v (s : State) (j : Fin 64) : (afterRound s j).held.v = true := by simp [afterRound]
@[simp] theorem afterRound_held_j (s : State) (j : Fin 64) : (afterRound s j).held.j = true := by simp [afterRound]

/-- R83: the counter counts up by one. -/
theorem afterRound_j_toNat {s : State} {j : Fin 64} (hj : s.j.toNat = j.val) : (afterRound s j).j.toNat = j.val + 1 := by
  simp only [afterRound, State.advance_j, State.writeWorking_j, expand_j, nextJ_toNat hj]

/-- R83: round 63 is the last. -/
theorem afterRound_phase {s : State} {j : Fin 64} (hj : s.j.toNat = j.val) :
    (afterRound s j).phase = if j.val = 63 then .accum else s.phase := by
  simp only [afterRound, State.advance_phase, State.writeWorking_j, State.writeWorking_phase, expand_j, expand_phase,
    nextJ_eq_64 hj]

/-! ### afterAccum -/

@[simp] theorem afterAccum_h (s : State) : (afterAccum s).h = accumulate s.h s.v := rfl
@[simp] theorem afterAccum_hvalid (s : State) : (afterAccum s).hvalid = s.hvalid := rfl
@[simp] theorem afterAccum_m (s : State) : (afterAccum s).m = s.m := rfl
@[simp] theorem afterAccum_mmask (s : State) : (afterAccum s).mmask = s.mmask := rfl
@[simp] theorem afterAccum_err (s : State) : (afterAccum s).err = s.err := rfl
@[simp] theorem afterAccum_bcnt (s : State) : (afterAccum s).bcnt = s.bcnt + 1 := rfl
@[simp] theorem afterAccum_phase (s : State) : (afterAccum s).phase = .idle := rfl
@[simp] theorem afterAccum_j (s : State) : (afterAccum s).j = s.j := rfl
@[simp] theorem afterAccum_held (s : State) : (afterAccum s).held = s.held := rfl

end Sys2Proof.Machine
end

section
/-! The invariant R35 with R38: it holds at reset, every effect of a turn keeps it, so every step and every run does, and under it
no step stops. -/

namespace Sys2Proof.Machine

open Sys2Proof

/-! ### Where the invariant holds -/

/-- While idle the invariant is that each word counted in MMASK holds a value. -/
theorem inv_of_idle {s : State} (hp : s.phase = .idle) (hm : s.InvMask) : s.Inv :=
  ⟨fun h => absurd hp h, hm, fun h => by simp [hp] at h, fun h => by simp [hp] at h, fun h => by simp [hp] at h⟩

/-- With no bit in MMASK no word is counted. -/
theorem invMask_of_mmask_zero {s : State} (h : s.mmask = 0) : s.InvMask := fun i hi => by simp [h] at hi

/-- With every bit in MMASK every word of M holds a value. -/
theorem held_of_mmask_full {s : State} (h : s.InvMask) (hm : s.mmask = 0xFFFF) (i : Fin 16) : s.held.m[i.val] = true :=
  h i (by rw [hm]; revert i; decide)

theorem inv_reset : State.reset.Inv := inv_of_idle rfl (invMask_of_mmask_zero rfl)

/-- The invariant does not speak of ERR, the result or the schedule. -/
theorem inv_reject {s : State} (cause : Cause) : (s.reject cause).Inv ↔ s.Inv := Iff.rfl

theorem inv_respond {s : State} (word : Word) : (s.respond word).Inv ↔ s.Inv := Iff.rfl

theorem inv_withInputs {s : State} (turns : List Turn) : (s.withInputs turns).Inv ↔ s.Inv := Iff.rfl

/-! ### The effects keep it -/

theorem inv_writeM {s : State} (hp : s.phase = .idle) (h : s.InvMask) (i : Fin 16) (word : Word) :
    (s.writeM i word).Inv := by
  refine inv_of_idle hp fun k hk => ?_
  rw [writeM_mmask_getLsbD] at hk
  rw [writeM_held_m_getElem]
  split
  · rfl
  · next hki => exact h k (by simpa [hki] using hk)

theorem inv_beginBlock {s : State} (h : s.InvMask) (hv : s.hvalid = true) (hm : s.mmask = 0xFFFF) : s.beginBlock.Inv :=
  ⟨fun _ => ⟨hv, rfl⟩, invMask_of_mmask_zero rfl, fun _ i => held_of_mmask_full (s := s) h hm i, nofun, nofun⟩

theorem inv_afterLoad {s : State} (hp : s.phase = .load) (h : s.Inv) : (afterLoad s).Inv := by
  obtain ⟨hbusy, -⟩ := h
  obtain ⟨hv, hm⟩ := hbusy (by simp [hp])
  refine ⟨fun _ => by simp [hv, hm], invMask_of_mmask_zero (by simp [hm]), fun h => by simp at h,
    fun _ => ⟨by simp, by simp, by simp, fun t ht => ?_⟩, fun h => by simp at h⟩
  have hlt : t.val < 16 := by simp at ht; omega
  simp [afterLoad, hlt]

/-- R81: after the ROUND step with counter j, W[0..max(15, j)] hold values. -/
theorem afterRound_held_w {s : State} {j t : Fin 64} (hw : ∀ t : Fin 64, t.val ≤ 15 ∨ t.val < j.val → s.held.w[t.val] = true)
    (ht : t.val ≤ 15 ∨ t.val ≤ j.val) : (afterRound s j).held.w[t.val] = true := by
  simp only [afterRound, State.advance_held_w, State.writeWorking_held_w, expand_held_w_getElem]
  split
  · rfl
  · next hne =>
    have : ¬ (t.val = j.val ∧ 16 ≤ j.val) := by rwa [Fin.ext_iff] at hne
    exact hw t (by omega)

theorem inv_afterRound {s : State} {j : Fin 64} (hp : s.phase = .round) (hj : s.j.toNat = j.val) (h : s.Inv) :
    (afterRound s j).Inv := by
  obtain ⟨hbusy, -, -, hround, -⟩ := h
  obtain ⟨hv, hm⟩ := hbusy (by simp [hp])
  obtain ⟨-, -, -, hw⟩ := hround hp
  have hphase := afterRound_phase hj
  have hnext := afterRound_j_toNat hj
  refine ⟨fun _ => by simp [hv, hm], invMask_of_mmask_zero (by simp [hm]), ?_, ?_, ?_⟩
  · intro h
    rw [hphase, hp] at h
    split at h <;> cases h
  · intro h
    have hj63 : j.val ≠ 63 := fun e => by simp [hphase, e] at h
    exact ⟨by simp, by simp, by omega, fun t ht => afterRound_held_w (hj ▸ hw) (by omega)⟩
  · intro h
    have hj63 : j.val = 63 := by
      by_contra e
      simp [hphase, e, hp] at h
    exact ⟨by simp, BitVec.eq_of_toNat_eq (by rw [hnext, hj63]; rfl), by simp⟩

theorem inv_afterAccum {s : State} (h : s.InvMask) : (afterAccum s).Inv := inv_of_idle rfl h

/-- R35: every turn that answers a next state keeps the invariant. -/
theorem takeTurn_keeps_inv {x : Turn} {s t : State} (hs : s.Inv) (h : takeTurn x s = .next t) : t.Inv := by
  obtain ⟨-, hmask, -⟩ := id hs
  cases takeTurn_effect h with
  | reset hr => exact (inv_withInputs s.inputs).2 inv_reset
  | rejected hr he cause => exact (inv_reject cause).2 hs
  | readout hr he word => exact (inv_respond word).2 hs
  | init hr he hc hp => exact (inv_respond 0).2 (inv_of_idle hp (invMask_of_mmask_zero rfl))
  | wrm hr he hc hp => exact (inv_respond 0).2 (inv_writeM hp hmask _ _)
  | compress hr he hc hp hv hm => exact (inv_respond 0).2 (inv_beginBlock hmask hv hm)
  | stutter hr he hp => exact hs
  | load hr he hp => exact inv_afterLoad hp hs
  | round hr he hp hj => exact inv_afterRound hp hj hs
  | accum hr he hp => exact inv_afterAccum hmask

/-- R48: a step is a turn, taken in a state that differs in the schedule at most. -/
theorem step_eq_takeTurn (s : State) : ∃ x turns, step s = takeTurn x (s.withInputs turns) := by
  cases h : s.inputs with
  | nil =>
    refine ⟨engineTurn, [], ?_⟩
    rw [step_nil h, takeTurn_engine]
    simp only [State.withInputs, ← h]
  | cons x rest => exact ⟨x, rest, step_cons h⟩

/-! ### Runs -/

/-- What every turn keeps, every run keeps. -/
theorem runTurns_keeps {P : State → Prop} (hP : ∀ x s t, P s → takeTurn x s = .next t → P t) {turns : List Turn}
    {s t : State} (hs : P s) (h : runTurns turns s = .next t) : P t := by
  induction turns generalizing s with
  | nil => injection h with h; exact h ▸ hs
  | cons x rest ih =>
    unfold runTurns at h
    split at h
    · next s' hx => exact ih (hP x s s' hs hx) h
    · cases h
    · cases h

theorem runTurns_keeps_inv {turns : List Turn} {s t : State} (hs : s.Inv) (h : runTurns turns s = .next t) : t.Inv :=
  runTurns_keeps (fun _ _ _ => takeTurn_keeps_inv) hs h

/-! ### No step stops -/

/-- R79: the engine's turn completes unless it is a round without a number (log 6). -/
theorem engineStep_answers_next {s : State} (h : s.phase = .round → s.j.toNat < 64) : ∃ t, engineStep s = .next t := by
  unfold engineStep
  split
  · exact ⟨_, rfl⟩
  · exact ⟨_, loadStep_eq s⟩
  · next hp => exact ⟨_, roundStep_eq (j := ⟨s.j.toNat, h hp⟩) rfl⟩
  · exact ⟨_, accumStep_eq s⟩

/-- R35 (c), R38: under the invariant every turn completes. -/
theorem takeTurn_answers_next {s : State} (hs : s.Inv) (x : Turn) : ∃ t, takeTurn x s = .next t := by
  obtain ⟨-, -, -, hround, -⟩ := hs
  unfold takeTurn
  split
  · exact ⟨_, rfl⟩
  split
  · exact transact_answers_next _ s
  · refine engineStep_answers_next fun hp => ?_
    obtain ⟨-, -, hj, -⟩ := hround hp
    omega

/-- Settles O34: the reset state is idle and counts no word in MMASK. -/
theorem resetMeetsTheInvariant : Obligations.ResetMeetsTheInvariant := inv_reset

/-- Settles O35, effect by effect of the turn that the step takes. -/
theorem stepKeepsTheInvariant : Obligations.StepKeepsTheInvariant := by
  intro s t hs h
  obtain ⟨x, turns, e⟩ := step_eq_takeTurn s
  exact takeTurn_keeps_inv ((inv_withInputs turns).2 hs) (e ▸ h)

/-- Settles O36: transactions and resets always complete, and the invariant gives ROUND its round number. -/
theorem stepNeverFaultsUnderTheInvariant : Obligations.StepNeverFaultsUnderTheInvariant := by
  intro s hs
  obtain ⟨x, turns, e⟩ := step_eq_takeTurn s
  exact e ▸ takeTurn_answers_next ((inv_withInputs turns).2 hs) x

/-- Settles O57: the invariant holds after the run, and says of each phase what its step reads. -/
theorem noStepReadsARegisterWithoutValue : Obligations.NoStepReadsARegisterWithoutValue := by
  intro turns s t hs h
  obtain ⟨hbusy, -, hload, hround, haccum⟩ := runTurns_keeps_inv hs h
  refine ⟨fun hp => ?_, fun hp => ?_, fun hp => ?_⟩
  · obtain ⟨hv, -⟩ := hbusy (by simp [hp])
    exact ⟨hv, hload hp⟩
  · obtain ⟨hj, hv, hle, hw⟩ := hround hp
    have hheld (k : Nat) (hk : k < 64) (hkj : k ≤ 15 ∨ k < t.j.toNat) : t.held.w[k] = true := hw ⟨k, hk⟩ hkj
    refine ⟨hj, hv, ⟨t.j.toNat, by omega⟩, rfl, fun h16 => ?_, fun h16 => ?_⟩ <;> dsimp only at h16 ⊢
    · exact ⟨hheld _ _ (by omega), hheld _ _ (by omega), hheld _ _ (by omega), hheld _ _ (by omega)⟩
    · exact hheld _ _ (by omega)
  · obtain ⟨hv, -⟩ := hbusy (by simp [hp])
    obtain ⟨-, -, hheld⟩ := haccum hp
    exact ⟨hv, hheld⟩

end Sys2Proof.Machine
end

section
/-! The transitions of the state's registers, each a case analysis on the effect of a turn (10_state.md R15 to R26). -/

namespace Sys2Proof.Machine

open Sys2Proof

/-- R104: a turn with reset is the reset. -/
theorem takeTurn_of_reset {x : Turn} {s t : State} (hr : x.reset = true) (h : takeTurn x s = .next t) : t = s.resetNow := by
  simp only [takeTurn, hr, if_true] at h
  injection h with h
  exact h.symm

/-- R48: an engine turn without reset is the engine's step. -/
theorem takeTurn_of_engine {x : Turn} (hr : x.reset = false) (he : x.event = .engine) (s : State) :
    takeTurn x s = engineStep s := by simp [takeTurn, hr, he]

/-- R79, R85: the engine's step in ACCUM. -/
theorem engineStep_accum {s : State} (hp : s.phase = .accum) : engineStep s = .next (afterAccum s) := by
  simp only [engineStep, hp, accumStep_eq]

/-- R100: a rejection is one ERR bit and the result 0. -/
theorem reject_eq (s : State) (cause : Cause) : s.reject cause = { s with err := s.err ||| cause.bit, result := 0 } := rfl

theorem Cause.code_lt (cause : Cause) : cause.code < 4 := by cases cause <;> decide

/-- Settles O17: only the rejected effects set a bit of ERR, and each cause's check decides its rejection. -/
theorem errBitsAreStickyAndRejectionsArePrecise : Obligations.ErrBitsAreStickyAndRejectionsArePrecise := by
  intro x s t h
  refine ⟨fun hr => ?_, fun hr => ?_, fun c hr he => ?_⟩
  · rw [takeTurn_of_reset hr h]; rfl
  · cases takeTurn_effect h with
    | reset hr' => cases hr.symm.trans hr'
    | rejected _ he cause => exact .inr (.inr ⟨⟨cause.code, cause.code_lt⟩, _, he, rfl⟩)
    | init _ he hc hp => exact .inr (.inl ⟨rfl, hp, _, he, hc⟩)
    | readout | wrm | compress | stutter | load | round | accum => exact .inl (by simp)
  · rw [takeTurn_transaction hr he] at h
    have rejected {cause : Cause} (e : transact c s = .next (s.reject cause)) :
        t = { s with err := s.err ||| cause.bit, result := 0 } := by
      injection h.symm.trans e
    refine ⟨fun e hc => rejected (cause := .illegal) (transact_error hc s),
      fun i hc hp hn hs => rejected (cause := .busy) ?_, fun i hc hp hv hi => rejected (cause := .noInit) ?_,
      fun hc hp hv hm => rejected (cause := .incomplete) ?_⟩
    · rw [transact_ok hc, exec_busy (decode_wf hc) hp hn hs]
    · rw [transact_ok hc, exec_noInit (decode_wf hc) hp hv hi]
    · rw [transact_ok hc, exec_compress_incomplete hp hv hm]

/-- Settles O18: of the effects without reset only INIT's has another HVALID, and only INIT's and ACCUM's another H. -/
theorem hashStateHasTwoWriters : Obligations.HashStateHasTwoWriters := by
  intro x s t hr h
  cases takeTurn_effect h with
  | reset hr' => cases hr.symm.trans hr'
  | init _ he hc hp => exact ⟨fun _ => ⟨rfl, hp, _, he, hc⟩, fun _ => .inl ⟨rfl, rfl, hp, _, he, hc⟩⟩
  | accum _ he hp => exact ⟨fun hne => absurd rfl hne, fun _ => .inr ⟨he, hp⟩⟩
  | rejected | readout | wrm | compress | stutter | load | round =>
    exact ⟨fun hne => absurd (by simp) hne, fun hne => absurd (by simp) hne⟩

/-- Settles O19: only WRM's effect has another M, in the one word whose bit it sets; only INIT's and COMPRESS's clear a bit. -/
theorem blockBufferAndMaskTransitions : Obligations.BlockBufferAndMaskTransitions := by
  intro x s t k hr h
  cases takeTurn_effect h with
  | reset hr' => cases hr.symm.trans hr'
  | @wrm c idx word _ he hc hp =>
    rw [State.respond_m, State.respond_mmask, writeM_m_getElem, writeM_mmask_getLsbD]
    by_cases hk : k = blockIndex idx
    · have hidx : BitVec.ofNat 4 k.val = idx := by simp [hk, blockIndex]
      simp only [if_pos hk]
      exact ⟨fun _ => trivial, fun _ => ⟨hp, c, word, he, hidx ▸ hc, rfl⟩, fun hclear => nomatch hclear.1⟩
    · simp [hk]
  | init _ he hc hp => simp [hp, he, hc]
  | compress _ he hc hp => simp [hp, he, hc]
  | rejected | readout | stutter | load | round | accum => simp

/-- Settles O20: each effect's BCNT, and that an INIT while idle has no other effect than its own. -/
theorem blockCounterTransitions : Obligations.BlockCounterTransitions := by
  intro x s t h
  refine ⟨fun hr => ?_, fun hr he hp => ?_, fun hr he hp => ?_, fun c hr he hc hp => ?_, fun c hr he hc => ?_⟩
  · rw [takeTurn_of_reset hr h]; rfl
  · rw [takeTurn_of_engine hr he, engineStep_accum hp] at h
    injection h with h
    rw [← h, afterAccum_bcnt]
  · rw [takeTurn_of_engine hr he] at h
    obtain ⟨-, rfl⟩ | ⟨-, rfl⟩ | ⟨-, j, -, rfl⟩ | ⟨hp', -⟩ := engineStep_next h
    · rfl
    · exact afterLoad_bcnt s
    · exact afterRound_bcnt s j
    · exact absurd hp' hp
  · rw [takeTurn_transaction hr he, transact_ok hc, exec_init_idle hp] at h
    injection h with h
    exact h ▸ rfl
  · cases takeTurn_effect h with
    | reset hr' => cases hr.symm.trans hr'
    | init _ he' hc' hp =>
      cases he.symm.trans he'
      exact hc.elim (absurd hc') (absurd hp)
    | accum _ he' => cases he.symm.trans he'
    | rejected | readout | wrm | compress | stutter | load | round => simp

/-- Settles O21: PHASE and j of each effect. -/
theorem sequencerTransitions : Obligations.SequencerTransitions := by
  intro x s t h
  refine ⟨fun hr => ?_, fun hr => ?_⟩
  · rw [takeTurn_of_reset hr h]; rfl
  cases takeTurn_effect h with
  | reset hr' => cases hr.symm.trans hr'
  | compress _ he hc hp hv hm => exact .inl ⟨_, he, hc, hp, hv, hm, rfl, rfl⟩
  | load _ he hp => exact .inr (.inl ⟨he, hp, by simp, by simp⟩)
  | @round _ he hp j hj =>
    have hphase := afterRound_phase hj
    have hnext := afterRound_j_toNat hj
    by_cases h63 : j.val = 63
    · exact .inr (.inr (.inr (.inl ⟨he, hp, by omega, by simp [hphase, h63], by omega⟩)))
    · exact .inr (.inr (.inl ⟨he, hp, by omega, by simp [hphase, h63, hp], by omega⟩))
  | accum _ he hp => exact .inr (.inr (.inr (.inr (.inl ⟨he, hp, rfl, rfl⟩))))
  | stutter _ he hp => exact .inr (.inr (.inr (.inr (.inr ⟨rfl, rfl, fun _ => hp⟩))))
  | rejected _ he | readout _ he | init _ he | wrm _ he =>
    exact .inr (.inr (.inr (.inr (.inr ⟨rfl, rfl, fun he' => nomatch he.symm.trans he'⟩))))

/-- R26, R35 (f): a turn takes BCNT along with the count of ACCUM steps. -/
theorem takeTurn_bcnt {x : Turn} {s t : State} {n : Nat} (hn : s.bcnt = BitVec.ofNat 32 n) (h : takeTurn x s = .next t) :
    t.bcnt = BitVec.ofNat 32 (accumsAfter n x s) := by
  obtain ⟨hreset, haccum, hother, hinit, hkeep⟩ := blockCounterTransitions x s t h
  unfold accumsAfter
  split
  · next hr => exact hreset hr
  next hr =>
  rw [Bool.not_eq_true] at hr
  split
  · next c he =>
    split
    · next hc => exact hinit c hr he hc.1 hc.2
    · next hc => rw [hkeep c hr he (not_and_or.mp hc), hn]
  · next he =>
    split
    · next hp => rw [haccum hr he hp, hn, BitVec.ofNat_add]; rfl
    · next hp => rw [hother hr he hp, hn]

/-- Settles O37, by induction on the turns, from any count. -/
theorem bcntCountsAccumSteps : Obligations.BcntCountsAccumSteps := by
  intro turns
  induction turns with
  | nil => intro s t n hn h; injection h with h; exact h ▸ hn
  | cons x rest ih =>
    intro s t n hn h
    unfold runTurns at h
    split at h
    · next s' hx =>
      simp only [accumsAlong, hx]
      exact ih s' t _ (takeTurn_bcnt hn hx) h
    · cases h
    · cases h

end Sys2Proof.Machine
end

section
/-! What the host sees (10_state.md R30, R33, R34): the status word, reset, and that no transaction returns the hidden
registers. -/

namespace Sys2Proof.Machine

open Sys2Proof

/-! ### The status word -/

/-- Settles O13: the bits of STATUS one by one. -/
theorem statusFieldsStandWhereTheSpecPutsThem : Obligations.StatusFieldsStandWhereTheSpecPutsThem := by
  intro s
  refine ⟨s.status, rfl, ?busy, ?hvalid, ?mfull, ?_, ?_, ?_, ?_⟩
  case busy => exact status_getLsbD s 0 ▸ busy_eq_true s
  case hvalid => exact status_getLsbD s 1
  case mfull => exact status_getLsbD s 2 ▸ mfull_eq_true s
  all_goals
    apply BitVec.eq_of_getLsbD_eq
    intro i hi
    rw [BitVec.getLsbD_extractLsb', status_getLsbD]
    interval_cases i <;> simp

/-! ### Reset -/

/-- R34: STATUS reads 0 after reset. -/
theorem resetNow_status (s : State) : s.resetNow.status = 0 := by
  have hreset : State.reset.status = 0 := by decide
  exact hreset

/-- Settles O24: the values of the reset state, and the two reads that see it. -/
theorem resetGivesTheSpecsResetState : Obligations.ResetGivesTheSpecsResetState := by
  intro e s
  refine ⟨s.resetNow, takeTurn_reset e s, rfl, rfl, rfl, rfl, rfl, fun k => ?_, fun k => ?_, rfl, rfl, rfl, ?_, fun i => ?_⟩
  · simp [State.reset]
  · simp [State.reset]
  · exact congrArg (fun word => Host.Outcome.next (s.resetNow.respond word)) (resetNow_status s)
  · have hw : (Instr.rdh (BitVec.ofNat 4 i.val)).wf = true := by revert i; decide
    have herr : s.resetNow.err ||| Cause.noInit.bit = 0b0100 := BitVec.zero_or
    rw [exec_noInit hw rfl rfl (.inr ⟨_, rfl⟩), reject_eq, herr]

/-! ### The hidden registers -/

/-- Two states that agree in everything a transaction reads: all but M, W, a..h, j, the marks, the result and the schedule. -/
structure State.SameVisible (s s' : State) : Prop where
  h : s'.h = s.h
  hvalid : s'.hvalid = s.hvalid
  mmask : s'.mmask = s.mmask
  phase : s'.phase = s.phase
  err : s'.err = s.err
  bcnt : s'.bcnt = s.bcnt

/-- Two answers that both go on, with the same result and with states that a transaction cannot tell apart. -/
def Alike (r r' : Result) : Prop :=
  ∃ t t', r = .next t ∧ r' = .next t' ∧ t'.result = t.result ∧ t.SameVisible t'

namespace State.SameVisible

variable {s s' : State} (hs : s.SameVisible s')
include hs

theorem busy : s'.busy = s.busy := by simp [State.busy, hs.phase]

theorem mfull : s'.mfull = s.mfull := by simp [State.mfull, hs.mmask]

/-- R30: STATUS is made of visible fields. -/
theorem status : s'.status = s.status := by
  simp only [State.status, hs.mmask, hs.err, hs.mfull, hs.hvalid, hs.busy]

/-- R101: so are the checks. -/
theorem fails (cause : Cause) : cause.fails s' = cause.fails s := by
  cases cause
  · rfl
  · exact hs.busy
  · simp [hs.hvalid]
  · simp [hs.mfull]

theorem reject (cause : Cause) : Alike (.next (s.reject cause)) (.next (s'.reject cause)) :=
  ⟨_, _, rfl, rfl, rfl, hs.h, hs.hvalid, hs.mmask, hs.phase, by simp [hs.err], hs.bcnt⟩

theorem respond {word word' : Word} (e : word' = word) : Alike (.next (s.respond word)) (.next (s'.respond word')) :=
  ⟨_, _, rfl, rfl, e, hs.h, hs.hvalid, hs.mmask, hs.phase, hs.err, hs.bcnt⟩

theorem beginHash : s.beginHash.SameVisible s'.beginHash := ⟨rfl, rfl, rfl, hs.phase, rfl, rfl⟩

theorem writeM (i : Fin 16) (word : Word) : (s.writeM i word).SameVisible (s'.writeM i word) :=
  ⟨hs.h, hs.hvalid, by simp [hs.mmask], hs.phase, hs.err, hs.bcnt⟩

theorem beginBlock : s.beginBlock.SameVisible s'.beginBlock := ⟨hs.h, hs.hvalid, rfl, rfl, hs.err, hs.bcnt⟩

/-- R100, R101: a command with its checks answers alike if its effect does. -/
theorem guarded {k : State → Result} (hk : Alike (k s) (k s')) (checks : List Cause) :
    Alike (guarded checks k s) (guarded checks k s') := by
  induction checks with
  | nil => exact hk
  | cons cause rest ih =>
    rw [guarded_cons, guarded_cons, hs.fails cause]
    split
    · exact hs.reject cause
    · exact ih

/-- R33: every command answers alike. -/
theorem exec (i : Instr) : Alike (exec i s) (exec i s') := by
  cases i <;>
    simp only [Machine.exec, execNop, execInit, execWrm, execCompress, execRdh, execRdstat, execRdcnt]
  case nop => exact hs.respond rfl
  case init => exact hs.guarded (hs.beginHash.respond rfl) _
  case wrm idx word => exact hs.guarded ((hs.writeM _ word).respond rfl) _
  case compress => exact hs.guarded (hs.beginBlock.respond rfl) _
  case rdh idx =>
    split
    · exact hs.reject .illegal
    · refine hs.guarded ?_ _
      exact hs.respond (by rw [hs.h])
  case rdstat => exact hs.respond hs.status
  case rdcnt =>
    refine hs.guarded ?_ _
    exact hs.respond hs.bcnt

/-- R33, R57: so does every word. -/
theorem transact (c : Command) : Alike (transact c s) (transact c s') := by
  unfold Machine.transact
  split
  · exact hs.reject .illegal
  · exact hs.exec _

end State.SameVisible

/-- Settles O22: states that differ in hidden registers only are the same to every transaction, and so are the states after. -/
theorem hiddenStateIsNeverReturned : Obligations.HiddenStateIsNeverReturned := by
  intro c s t m w v j held h
  have hs : s.SameVisible { s with m := m, w := w, v := v, j := j, held := held } := ⟨rfl, rfl, rfl, rfl, rfl, rfl⟩
  obtain ⟨t₁, t', h₁, h', hresult, ht⟩ := hs.transact c
  obtain rfl : t = t₁ := by injection h.symm.trans h₁
  exact ⟨t', h', hresult, ht.status⟩

/-! ### The initial hash value -/

/-- R17: floor(sqrt(p * 2^64)) for the i-th prime p: the whole part of its square root over the 32 bits of IV[i]. -/
def ivRoot (i : Fin 8) : Nat := #v[1, 1, 2, 2, 3, 3, 4, 4][i.val] * 2 ^ 32 + romIV[i.val].toNat

theorem ofNat_ivRoot (i : Fin 8) : romIV[i.val] = BitVec.ofNat 32 (ivRoot i) := by
  have hlt := romIV[i.val].isLt
  apply BitVec.eq_of_toNat_eq
  rw [BitVec.toNat_ofNat, ivRoot]
  omega

/-- Settles O42, by the whole parts of the eight square roots. -/
theorem initialHashValueIsTheSquareRoots : Obligations.InitialHashValueIsTheSquareRoots := by
  have bounds : ∀ i : Fin 8,
      ivRoot i ^ 2 ≤ ([2, 3, 5, 7, 11, 13, 17, 19] : List Nat).getD i.val 0 * 2 ^ 64 ∧
      ([2, 3, 5, 7, 11, 13, 17, 19] : List Nat).getD i.val 0 * 2 ^ 64 < (ivRoot i + 1) ^ 2 := by decide
  refine ⟨rfl, fun i => ?_⟩
  obtain ⟨hle, hlt⟩ := bounds i
  exact ⟨ivRoot i, hle, hlt, ofNat_ivRoot i⟩

end Sys2Proof.Machine
end

section
/-! The turn a step takes, and the commands that repeat or do not (20_memory.md R46, R48). -/

namespace Sys2Proof.Machine

open Sys2Proof

/-- Settles O6: a step is its first scheduled turn, and each clause is the equation of that turn. -/
theorem stepRunsTheScheduledTurn : Obligations.StepRunsTheScheduledTurn := by
  refine ⟨?command, ?illegal, ?engine, ?reset, ?unscheduled⟩
  case command =>
    intro s c rest i hs hc
    rw [step_cons hs, takeTurn_transaction rfl rfl, transact_ok hc]
    rfl
  case illegal =>
    intro s c rest e hs hc
    rw [step_cons hs, takeTurn_transaction rfl rfl, transact_error hc]
    rfl
  case engine =>
    intro s rest hs
    rw [step_cons hs, takeTurn_of_engine rfl rfl]
    rfl
  case reset =>
    intro s e rest hs
    rw [step_cons hs, takeTurn_reset]
    rfl
  case unscheduled => exact fun s hs => step_nil hs

/-- R78: COMPRESS is accepted while idle, with a hash state and a whole block. -/
theorem exec_compress_full {s : State} (hp : s.phase = .idle) (hv : s.hvalid = true) (hm : s.mmask = 0xFFFF) :
    exec .compress s = .next (s.beginBlock.respond 0) := by
  simp only [exec, execCompress, guarded_idle hp, guarded_hvalid hv, guarded_full hm, guarded_nil]

/-- R46, R76: what INIT writes depends on nothing that it writes. -/
theorem beginHash_respond_idem (s : State) (word : Word) :
    (s.beginHash.respond word).beginHash.respond word = s.beginHash.respond word := rfl

/-- Settles O15: INIT stays idle and writes the same again; COMPRESS leaves a busy engine and an empty MMASK, so that a second one
fails the check of BUSY, and after the block that of MMASK. -/
theorem initIsIdempotentAndCompressIsNot : Obligations.InitIsIdempotentAndCompressIsNot := by
  refine ⟨fun s t hp h => ?init, fun s t hp hv hm h => ?compress⟩
  case init =>
    obtain rfl : s.beginHash.respond 0 = t := by injection (exec_init_idle hp).symm.trans h
    have hidle : (s.beginHash.respond 0).phase = .idle := hp
    rw [exec_init_idle hidle, beginHash_respond_idem]
  case compress =>
    obtain rfl : s.beginBlock.respond 0 = t := by injection (exec_compress_full hp hv hm).symm.trans h
    refine ⟨?busy, fun u hu huv hum => ?incomplete⟩
    case busy =>
      have hbusy : (s.beginBlock.respond 0).phase ≠ .idle := Phase.noConfusion
      exact exec_busy rfl hbusy Instr.noConfusion Instr.noConfusion
    case incomplete =>
      have hvalid : u.hvalid = true := huv.trans hv
      have hempty : u.mmask ≠ 0xFFFF := by simp [hum]
      exact exec_compress_incomplete hu hvalid hempty

end Sys2Proof.Machine
end

section
/-! The decoder and the encoder (30_encoding.md R54 to R58): a word decodes to a command exactly where it hits the command's row of
R56, and the command takes its operands from the fields of the word. -/

namespace Sys2Proof

open Machine

/-! ### The decoder line by line (R57) -/

/-- The commands without an index (R58 (c)). -/
def noIndexInstrs : List Instr := [.nop, .init, .compress, .rdstat, .rdcnt]

/-- R56: the opcode of a command's row. -/
def Instr.opcode : Instr → BitVec 4
  | .nop => 0x0
  | .init => 0x1
  | .wrm _ _ => 0x2
  | .compress => 0x3
  | .rdh _ => 0x4
  | .rdstat => 0x5
  | .rdcnt => 0x6

/-- R57, R58: each opcode is that of a command without an index, WRM's, RDH's, or reserved. -/
theorem opcode_cases (op : BitVec 4) :
    (∃ i ∈ noIndexInstrs, op = i.opcode) ∨ op = 2 ∨ op = 4 ∨ 7 ≤ op.toNat := by
  revert op; decide

/-- R57, R58 (c): a command without an index decodes to itself, where IDX = 0. -/
theorem decodeNoIndex_eq_ok {idx : BitVec 4} {i i' : Instr} : decodeNoIndex idx i = .ok i' ↔ idx = 0 ∧ i = i' := by
  unfold decodeNoIndex
  split <;> simp_all

theorem decodeNoIndex_eq_error {idx : BitVec 4} {i : Instr} : (∃ e, decodeNoIndex idx i = .error e) ↔ idx ≠ 0 := by
  unfold decodeNoIndex
  split <;> simp_all

theorem decodeNoIndex_toOption (idx : BitVec 4) (i : Instr) :
    (decodeNoIndex idx i).toOption = if idx = 0 then some i else none := by
  unfold decodeNoIndex
  split <;> rfl

section
variable {c : Command}

theorem decode_reservedBits (hr : c.rsv ≠ 0) : decode c = .error .reservedBits := if_pos hr

theorem decode_noIndex {i : Instr} (hi : i ∈ noIndexInstrs) (hr : c.rsv = 0) (ho : c.op = i.opcode) :
    decode c = decodeNoIndex c.idx i := by
  simp only [noIndexInstrs, List.mem_cons, List.not_mem_nil, or_false] at hi
  obtain rfl | rfl | rfl | rfl | rfl := hi <;> simp [decode, hr, ho, Instr.opcode]

theorem decode_wrm (hr : c.rsv = 0) (ho : c.op = 2) : decode c = .ok (.wrm c.idx c.data) := by
  simp [decode, hr, ho]

theorem decode_rdh (hr : c.rsv = 0) (ho : c.op = 4) :
    decode c = if c.idx.toNat < 8 then .ok (.rdh c.idx) else .error .hashIndexRange := by
  simp [decode, hr, ho]

theorem decode_reservedOpcode (hr : c.rsv = 0) (ho : 7 ≤ c.op.toNat) : decode c = .error .reservedOpcode := by
  simp only [decode, hr, ne_eq, not_true_eq_false, if_false]
  split <;> simp_all

end

/-! ### Commands by their fields and their row (R54, R56) -/

/-- R55: the index operand; 0 where there is none. -/
def Instr.index : Instr → BitVec 4
  | .wrm idx _ => idx
  | .rdh idx => idx
  | .nop | .init | .compress | .rdstat | .rdcnt => 0

/-- R56: the bits of IDX that the row's pattern holds at 0. -/
def Instr.indexMask : Instr → BitVec 4
  | .wrm _ _ => 0x0
  | .rdh _ => 0x8
  | .nop | .init | .compress | .rdstat | .rdcnt => 0xF

/-- R55: the command with its operands taken from IDX and the data operand. -/
def Instr.withOperands (idx : BitVec 4) (data : Word) : Instr → Instr
  | .wrm _ _ => .wrm idx data
  | .rdh _ => .rdh idx
  | .nop => .nop
  | .init => .init
  | .compress => .compress
  | .rdstat => .rdstat
  | .rdcnt => .rdcnt

/-- R56: the row of a command. -/
def Instr.row (i : Instr) : OpcodeRow := ⟨i.mnemonic, packCommand i.opcode 0 0, packCommand 0xF 0xFF i.indexMask⟩

/-- R56: the table is the rows of the seven commands. -/
theorem opcodeTable_eq_rows :
    opcodeTable = [Instr.nop, .init, .wrm 0 0, .compress, .rdh 0, .rdstat, .rdcnt].map Instr.row := by decide

@[simp] theorem row_withOperands (i : Instr) (idx : BitVec 4) (data : Word) : (i.withOperands idx data).row = i.row := by
  cases i <;> rfl

@[simp] theorem withOperands_withOperands (i : Instr) (idx : BitVec 4) (data : Word) :
    (i.withOperands idx data).withOperands idx data = i.withOperands idx data := by
  cases i <;> rfl

/-- R55: a command without an index has no operands. -/
theorem withOperands_noIndex {i : Instr} (hi : i ∈ noIndexInstrs) (idx : BitVec 4) (data : Word) :
    i.withOperands idx data = i := by
  simp only [noIndexInstrs, List.mem_cons, List.not_mem_nil, or_false] at hi
  obtain rfl | rfl | rfl | rfl | rfl := hi <;> rfl

theorem row_mem_opcodeTable (i : Instr) : i.row ∈ opcodeTable := by
  rw [opcodeTable_eq_rows]
  exact List.mem_map.mpr ⟨i.withOperands 0 0, by cases i <;> simp [Instr.withOperands], row_withOperands i 0 0⟩

/-- R57: bit 3 of IDX is what RDH's row holds at 0. -/
theorem and_eight_eq_zero_iff (idx : BitVec 4) : idx &&& 8 = 0 ↔ idx.toNat < 8 := by
  revert idx; decide

theorem getLsbD_three_eq_false_iff (idx : BitVec 4) : idx.getLsbD 3 = false ↔ idx.toNat < 8 := by
  revert idx; decide

theorem and_fifteen (idx : BitVec 4) : idx &&& 15 = idx := BitVec.and_allOnes

/-- R54: two packed words agree exactly where their fields do. -/
theorem packCommand_inj {op op' : BitVec 4} {rsv rsv' : BitVec 8} {idx idx' : BitVec 4} :
    packCommand op rsv idx = packCommand op' rsv' idx' ↔ op = op' ∧ rsv = rsv' ∧ idx = idx' := by
  refine ⟨fun h => ⟨?_, ?_, ?_⟩, fun ⟨ho, hr, hi⟩ => by rw [ho, hr, hi]⟩
  · rw [← pack_op op rsv idx, h, pack_op]
  · rw [← pack_rsv op rsv idx, h, pack_rsv]
  · rw [← pack_idx op rsv idx, h, pack_idx]

/-- R57: a mask acts field by field. -/
theorem packCommand_and (op op' : BitVec 4) (rsv rsv' : BitVec 8) (idx idx' : BitVec 4) :
    packCommand op rsv idx &&& packCommand op' rsv' idx' = packCommand (op &&& op') (rsv &&& rsv') (idx &&& idx') :=
  BitVec.and_append.trans (congrArg (· ++ (idx &&& idx')) BitVec.and_append)

/-- R54: a command word is the packing of its fields. -/
theorem cmd_eq_packCommand (c : Command) : c.cmd = packCommand c.op c.rsv c.idx := (pack_fields c.cmd).symm

/-- R56, R57: a word hits a command's row by its fields. -/
theorem row_hit_iff (i : Instr) (c : Command) :
    i.row.hit c.cmd = true ↔ c.op = i.opcode ∧ c.rsv = 0 ∧ c.idx &&& i.indexMask = 0 := by
  have hop : c.op &&& 0xF = c.op := BitVec.and_allOnes
  have hrsv : c.rsv &&& 0xFF = c.rsv := BitVec.and_allOnes
  rw [OpcodeRow.hit, beq_iff_eq, cmd_eq_packCommand c, Instr.row, packCommand_and, packCommand_inj, hop, hrsv]

/-! ### What decodes (R56, R57) -/

/-- R56, R57: a word decodes to a command exactly where it hits the command's row and carries its operands. -/
theorem decode_eq_ok_iff {c : Command} {i : Instr} :
    decode c = .ok i ↔ i.row.hit c.cmd = true ∧ i.withOperands c.idx c.data = i := by
  rw [row_hit_iff]
  constructor
  · intro h
    have hr : c.rsv = 0 := by
      by_contra hr
      simp [decode_reservedBits hr] at h
    obtain ⟨k, hk, ho⟩ | ho | ho | ho := opcode_cases c.op
    · rw [decode_noIndex hk hr ho, decodeNoIndex_eq_ok] at h
      obtain ⟨hidx, rfl⟩ := h
      exact ⟨⟨ho, hr, by simp [hidx]⟩, withOperands_noIndex hk c.idx c.data⟩
    · obtain rfl : Instr.wrm c.idx c.data = i := by simpa [decode_wrm hr ho] using h
      exact ⟨⟨ho, hr, BitVec.and_zero⟩, rfl⟩
    · rw [decode_rdh hr ho] at h
      split at h
      · next hlt =>
        injection h with h
        subst h
        exact ⟨⟨ho, hr, (and_eight_eq_zero_iff _).mpr hlt⟩, rfl⟩
      · cases h
    · simp [decode_reservedOpcode hr ho] at h
  · rintro ⟨⟨ho, hr, hmask⟩, hi⟩
    cases i with
    | wrm idx word => rw [decode_wrm hr ho]; exact congrArg _ hi
    | rdh idx => rw [decode_rdh hr ho, if_pos ((and_eight_eq_zero_iff _).mp hmask)]; exact congrArg _ hi
    | nop | init | compress | rdstat | rdcnt =>
      rw [decode_noIndex (by simp [noIndexInstrs]) hr ho, decodeNoIndex_eq_ok, ← and_fifteen c.idx]
      exact ⟨hmask, rfl⟩

/-- R56, R57: a word hits a row exactly where it decodes to a command of that row. -/
theorem row_hit_iff_decode (k : Instr) (c : Command) :
    k.row.hit c.cmd = true ↔ ∃ i, decode c = .ok i ∧ i.row = k.row := by
  constructor
  · intro h
    exact ⟨k.withOperands c.idx c.data, decode_eq_ok_iff.mpr ⟨by simpa using h, by simp⟩, by simp⟩
  · rintro ⟨i, hc, hrow⟩
    exact hrow ▸ (decode_eq_ok_iff.mp hc).1

/-! ### Encoding (R56, R62) -/

theorem encode_cmd (i : Instr) : (encode i).cmd = packCommand i.opcode 0 i.index := by cases i <;> rfl

/-- R56: a well-formed command's index has 0 where its row holds IDX at 0. -/
theorem index_and_indexMask {i : Instr} (h : i.wf = true) : i.index &&& i.indexMask = 0 := by
  cases i with
  | rdh idx => exact (and_eight_eq_zero_iff idx).mpr (of_decide_eq_true h)
  | wrm idx word => exact BitVec.and_zero
  | nop | init | compress | rdstat | rdcnt => rfl

/-- A word of the same 16 bits as a well-formed command's encoding decodes to that command, with the data it carries. -/
theorem decode_of_cmd_eq_encode {i : Instr} {c : Command} (hw : i.wf = true) (h : c.cmd = (encode i).cmd) :
    decode c = .ok (i.withOperands i.index c.data) := by
  rw [encode_cmd, cmd_eq_packCommand, packCommand_inj] at h
  obtain ⟨ho, hr, hidx⟩ := h
  have hhit : i.row.hit c.cmd = true := (row_hit_iff i c).mpr ⟨ho, hr, hidx ▸ index_and_indexMask hw⟩
  exact decode_eq_ok_iff.mpr (by simpa [hidx] using hhit)

/-- R55: the operands of a command are the index and the data of its encoding. -/
theorem withOperands_encode (i : Instr) : i.withOperands i.index (encode i).data = i := by cases i <;> rfl

/-- Settles O2: the encoding carries the fields of the command's row and its operands. -/
theorem decodeOfEncodeIsTheInstruction : Obligations.DecodeOfEncodeIsTheInstruction := by
  intro i hw
  rw [decode_of_cmd_eq_encode hw rfl, withOperands_encode]

/-- R56: what decodes has the index its word carries. -/
theorem index_of_decode {c : Command} {i : Instr} (h : decode c = .ok i) : i.index = c.idx := by
  obtain ⟨hhit, hi⟩ := decode_eq_ok_iff.mp h
  obtain ⟨-, -, hmask⟩ := (row_hit_iff i c).mp hhit
  cases i with
  | wrm | rdh => rw [← hi]; rfl
  | nop | init | compress | rdstat | rdcnt => exact hmask.symm.trans (and_fifteen c.idx)

theorem encode_cmd_of_decode {c : Command} {i : Instr} (h : decode c = .ok i) : (encode i).cmd = c.cmd := by
  obtain ⟨ho, hr, -⟩ := (row_hit_iff i c).mp (decode_eq_ok_iff.mp h).1
  rw [encode_cmd, cmd_eq_packCommand c, ho, hr, index_of_decode h]

/-- Settles O3: the fields of a word that decodes are those of its command's encoding. -/
theorem encodeOfDecodeIsTheWord : Obligations.EncodeOfDecodeIsTheWord := by
  intro c i h
  refine ⟨decode_wf h, encode_cmd_of_decode h, ?_⟩
  rintro idx word rfl
  obtain ⟨-, hi⟩ := decode_eq_ok_iff.mp h
  injection hi with _ hdata
  exact hdata.symm

/-! ### The legal words and the illegal ones (R57, R58) -/

/-- R56: each command that can be encoded, once for each index (2 + 16 + 1 + 8 + 2 = 29), with the data 0. -/
def legalInstrs : List Instr :=
  [.nop, .init] ++ (List.finRange 16).map (fun i => .wrm (BitVec.ofFin i) 0) ++ [.compress] ++
    (List.finRange 8).map (fun i => .rdh (BitVec.ofNat 4 i.val)) ++ [.rdstat, .rdcnt]

/-- R57: the legal words. -/
def legalWords : List (BitVec 16) := legalInstrs.map fun i => (encode i).cmd

theorem encode_cmd_mem_legalWords {i : Instr} (h : i.wf = true) : (encode i).cmd ∈ legalWords := by
  cases i with
  | wrm idx word =>
    have hall : ∀ idx, packCommand 0x2 0 idx ∈ legalWords := by decide
    exact hall idx
  | rdh idx =>
    have hall : ∀ idx : BitVec 4, idx.toNat < 8 → packCommand 0x4 0 idx ∈ legalWords := by decide
    exact hall idx (of_decide_eq_true h)
  | nop | init | compress | rdstat | rdcnt => decide

theorem wf_of_mem_legalInstrs : ∀ i ∈ legalInstrs, i.wf = true := by decide

/-- R57: the words that decode are the encodings of the well-formed commands. -/
theorem decodes_iff_mem_legalWords (c : Command) : (∃ i, decode c = .ok i) ↔ c.cmd ∈ legalWords := by
  constructor
  · rintro ⟨i, h⟩
    exact encode_cmd_of_decode h ▸ encode_cmd_mem_legalWords (decode_wf h)
  · intro h
    obtain ⟨i, hi, hcmd⟩ := List.mem_map.mp h
    exact ⟨_, decode_of_cmd_eq_encode (wf_of_mem_legalInstrs i hi) hcmd.symm⟩

theorem toOption_ne_none_iff {ε α : Type} (r : Except ε α) : r.toOption ≠ none ↔ ∃ x, r = .ok x := by
  cases r <;> simp [Except.toOption]

/-- R57: a word that decodes hits the row of its command and no other. -/
theorem filter_hit_of_decode {c : Command} {i : Instr} (h : decode c = .ok i) :
    opcodeTable.filter (·.hit c.cmd) = [i.row] := by
  have hhit : ∀ r ∈ opcodeTable, r.hit c.cmd = decide (r = i.row) := by
    intro r hr
    obtain ⟨k, -, rfl⟩ := List.mem_map.mp (opcodeTable_eq_rows ▸ hr)
    rw [Bool.eq_iff_iff, row_hit_iff_decode, decide_eq_true_iff, h]
    exact ⟨fun ⟨_, hi, hk⟩ => by injection hi with hi; rw [← hk, hi], fun hk => ⟨i, rfl, hk.symm⟩⟩
  rw [List.filter_congr hhit, List.filter_eq, List.count_eq_one_of_mem (by decide) (row_mem_opcodeTable i), List.replicate_one]

/-- R57: a word that does not decode hits no row. -/
theorem filter_hit_of_error {c : Command} {e : DecodeError} (h : decode c = .error e) :
    opcodeTable.filter (·.hit c.cmd) = [] := by
  rw [List.filter_eq_nil_iff]
  intro r hr hhit
  obtain ⟨k, -, rfl⟩ := List.mem_map.mp (opcodeTable_eq_rows ▸ hr)
  obtain ⟨i, hi, -⟩ := (row_hit_iff_decode k c).mp hhit
  simp [h] at hi

/-- R57: the decoder's answer to a command without an index. -/
theorem decode_noIndex_toOption {c : Command} {i : Instr} (hi : i ∈ noIndexInstrs) (hr : c.rsv = 0) (ho : c.op = i.opcode) :
    (decode c).toOption = if c.idx = 0 then some i else none := by
  rw [decode_noIndex hi hr ho, decodeNoIndex_toOption]

/-- R57: the decoder's answer to a reserved opcode, whatever the other fields. -/
theorem decode_toOption_of_seven_le {c : Command} (ho : 7 ≤ c.op.toNat) : (decode c).toOption = none := by
  by_cases hr : c.rsv = 0
  · rw [decode_reservedOpcode hr ho]; rfl
  · rw [decode_reservedBits hr]; rfl

/-- Settles O4: the decoder's lines one by one, then the table through the rows of the commands, then the legal words. -/
theorem decoderIsTheSpecsDecoder : Obligations.DecoderIsTheSpecsDecoder := by
  refine ⟨fun c => ?lines, fun c i h => ⟨i.row, filter_hit_of_decode h, rfl⟩, fun c e h => filter_hit_of_error h,
    fun c => (toOption_ne_none_iff _).trans (decodes_iff_mem_legalWords c)⟩
  refine ⟨?rsv, ?nop, ?init, ?wrm, ?compress, ?rdh, ?rdstat, ?rdcnt, decode_toOption_of_seven_le⟩
  case rsv => exact fun hr => congrArg Except.toOption (decode_reservedBits hr)
  case wrm => exact fun hr ho => congrArg Except.toOption (decode_wrm hr ho)
  case rdh =>
    intro hr ho
    rw [decode_rdh hr ho, apply_ite Except.toOption]
    exact if_congr (getLsbD_three_eq_false_iff _).symm rfl rfl
  case nop => exact decode_noIndex_toOption (i := .nop) (by decide)
  case init => exact decode_noIndex_toOption (i := .init) (by decide)
  case compress => exact decode_noIndex_toOption (i := .compress) (by decide)
  case rdstat => exact decode_noIndex_toOption (i := .rdstat) (by decide)
  case rdcnt => exact decode_noIndex_toOption (i := .rdcnt) (by decide)

/-- Settles O5: the cases of R58 are the decoder's lines that answer ILLEGAL; the effect is the rejection of R100. -/
theorem illegalWordsAreRejectedWithErrIllegal : Obligations.IllegalWordsAreRejectedWithErrIllegal := by
  refine ⟨fun c => ?words, fun c e s h => transact_error h s⟩
  change (7 ≤ c.op.toNat ∨ c.rsv ≠ 0 ∨ (c.idx ≠ 0 ∧ (c.op = 0 ∨ c.op = 1 ∨ c.op = 3 ∨ c.op = 5 ∨ c.op = 6)) ∨
    (8 ≤ c.idx.toNat ∧ c.op = 4)) ↔ ∃ e, decode c = .error e
  by_cases hr : c.rsv = 0
  case neg => exact iff_of_true (.inr (.inl hr)) ⟨_, decode_reservedBits hr⟩
  obtain ⟨k, hk, ho⟩ | ho | ho | ho := opcode_cases c.op
  · rw [decode_noIndex hk hr ho, decodeNoIndex_eq_error]
    revert hk
    cases k <;> simp [noIndexInstrs, hr, ho, Instr.opcode]
  · simp [hr, ho, decode_wrm hr ho]
  · by_cases hlt : c.idx.toNat < 8 <;> simp [hr, ho, decode_rdh hr ho, hlt]
    omega
  · simp [ho, decode_reservedOpcode hr ho]

/-- Settles O1: the legal words are encodings, decoded with the data they carry; each illegal one is decoded by its fields. -/
theorem specWordsDecodeToTheirCommands : Obligations.SpecWordsDecodeToTheirCommands := by
  intro d
  exact ⟨decode_of_cmd_eq_encode (i := .nop) rfl rfl, decode_of_cmd_eq_encode (i := .init) rfl rfl,
    decode_of_cmd_eq_encode (i := .wrm 7 0) rfl rfl, decode_of_cmd_eq_encode (i := .compress) rfl rfl,
    decode_of_cmd_eq_encode (i := .rdh 7) rfl rfl, decode_of_cmd_eq_encode (i := .rdstat) rfl rfl,
    decode_of_cmd_eq_encode (i := .rdcnt) rfl rfl,
    decode_pack 0x0 0 0x1 d, decode_pack 0x2 0x01 0 d, decode_pack 0x4 0 0x8 d, decode_pack 0x7 0 0 d⟩

end Sys2Proof
end

section
/-! The sixteen WRM of a block (30_encoding.md R63): while the engine is idle each writes its own word, its own bit of MMASK and its
own mark, so that any two of them commute. -/

namespace Sys2Proof.Machine

open Sys2Proof

/-- R55: the index operand of an encoded index. -/
theorem blockIndex_ofNat (i : Fin 16) : blockIndex (BitVec.ofNat 4 i.val) = i :=
  Fin.ext (Nat.mod_eq_of_lt i.isLt)

/-- R77: WRM is accepted while idle. -/
theorem exec_wrm_idle {s : State} (hp : s.phase = .idle) (idx : BitVec 4) (word : Word) :
    exec (.wrm idx word) s = .next ((s.writeM (blockIndex idx) word).respond 0) := by
  simp only [exec, execWrm, guarded_idle hp, guarded_nil]

/-- R63, R77: the state after WRM has written word `i` of the block. -/
def State.writeBlockWord (ws : Vector Word 16) (s : State) (i : Fin 16) : State := (s.writeM i ws[i.val]).respond 0

/-- R63: the turn in which the host writes word `i` of the block. -/
def blockWordTurn (ws : Vector Word 16) (i : Fin 16) : Turn := hostTurn (encode (.wrm (BitVec.ofNat 4 i.val) ws[i.val]))

theorem takeTurn_blockWord (ws : Vector Word 16) (i : Fin 16) {s : State} (hp : s.phase = .idle) :
    takeTurn (blockWordTurn ws i) s = .next (s.writeBlockWord ws i) := by
  rw [takeTurn_transaction rfl rfl, transact_ok (decodeOfEncodeIsTheInstruction _ rfl), exec_wrm_idle hp, blockIndex_ofNat]
  rfl

/-- R63: an idle core completes any list of word writes, one after another. -/
theorem runTurns_blockWords (ws : Vector Word 16) (order : List (Fin 16)) {s : State} (hp : s.phase = .idle) :
    runTurns (order.map (blockWordTurn ws)) s = .next (order.foldl (State.writeBlockWord ws) s) := by
  induction order generalizing s with
  | nil => rfl
  | cons i order ih =>
    rw [List.map_cons, runTurns_cons_next (takeTurn_blockWord ws i hp), List.foldl_cons]
    exact ih hp

/-- R63: WRBLK is the word writes in index order. -/
theorem wrblk_turns (ws : Vector Word 16) :
    (wrblk ws).map (fun op => hostTurn op.command) = (List.finRange 16).map (blockWordTurn ws) := by
  rw [wrblk, List.map_map]
  rfl

/-- R77: two writes to the block buffer commute where they write different words. -/
theorem writeM_comm (s : State) {i k : Fin 16} (hik : i ≠ k) (x y : Word) :
    (s.writeM i x).writeM k y = (s.writeM k y).writeM i x := by
  have hne : i.val ≠ k.val := Fin.val_ne_of_ne hik
  apply State.eq_of_fields
  case hm => exact Vector.set_comm (hi := i.isLt) (hj := k.isLt) x y hne
  case hmm => simp only [State.writeM_mmask, BitVec.or_assoc, BitVec.or_comm (1#16 <<< i.val)]
  case hheld => exact Held.eq_of_fields (Vector.set_comm (hi := i.isLt) (hj := k.isLt) true true hne) rfl rfl rfl
  all_goals rfl

/-- R63: the word writes of one block commute. -/
theorem writeBlockWord_comm (ws : Vector Word 16) (s : State) (i k : Fin 16) :
    (s.writeBlockWord ws i).writeBlockWord ws k = (s.writeBlockWord ws k).writeBlockWord ws i := by
  by_cases hik : i = k
  · rw [hik]
  · have hpair : ∀ i k, (s.writeBlockWord ws i).writeBlockWord ws k =
        ((s.writeM i ws[i.val]).writeM k ws[k.val]).respond 0 := fun _ _ => rfl
    rw [hpair, hpair, writeM_comm s hik]

/-- R63, R77: the block buffer after a list of word writes. -/
theorem writeBlockWords_m (ws : Vector Word 16) (order : List (Fin 16)) (s : State) (k : Fin 16) :
    (order.foldl (State.writeBlockWord ws) s).m[k.val] = if k ∈ order then ws[k.val] else s.m[k.val] := by
  induction order generalizing s with
  | nil => rfl
  | cons i order ih =>
    have hw : (s.writeBlockWord ws i).m[k.val] = if k = i then ws[i.val] else s.m[k.val] := writeM_m_getElem s i k _
    rw [List.foldl_cons, ih, hw]
    by_cases hk : k = i <;> simp [hk]

/-- R19, R77: MMASK after a list of word writes. -/
theorem writeBlockWords_mmask (ws : Vector Word 16) (order : List (Fin 16)) (s : State) (k : Fin 16) :
    (order.foldl (State.writeBlockWord ws) s).mmask.getLsbD k.val = if k ∈ order then true else s.mmask.getLsbD k.val := by
  induction order generalizing s with
  | nil => rfl
  | cons i order ih =>
    have hw : (s.writeBlockWord ws i).mmask.getLsbD k.val = if k = i then true else s.mmask.getLsbD k.val :=
      writeM_mmask_getLsbD s i k ws[i.val]
    rw [List.foldl_cons, ih, hw]
    by_cases hk : k = i <;> simp [hk]

/-- R63: writing every word of the block makes M the block. -/
theorem writeBlockWords_m_eq (ws : Vector Word 16) {order : List (Fin 16)} (hall : ∀ k, k ∈ order) (s : State) :
    (order.foldl (State.writeBlockWord ws) s).m = ws := by
  ext1 k hk
  exact (writeBlockWords_m ws order s ⟨k, hk⟩).trans (if_pos (hall _))

/-- R19, R63: writing every word of the block fills MMASK. -/
theorem writeBlockWords_mmask_eq (ws : Vector Word 16) {order : List (Fin 16)} (hall : ∀ k, k ∈ order) (s : State) :
    (order.foldl (State.writeBlockWord ws) s).mmask = 0xFFFF := by
  have hfull : ∀ k : Fin 16, (0xFFFF#16).getLsbD k.val = true := by decide
  apply BitVec.eq_of_getLsbD_eq
  intro k hk
  rw [writeBlockWords_mmask ws order s ⟨k, hk⟩, if_pos (hall _)]
  exact (hfull ⟨k, hk⟩).symm

/-- Settles O45: any two of the sixteen word writes commute, so a permutation of them gives WRBLK's state. -/
theorem blockWordsInAnyOrderGiveTheSameState : Obligations.BlockWordsInAnyOrderGiveTheSameState := by
  intro s ws order hp hperm
  have hall : ∀ k, k ∈ order := fun k => hperm.mem_iff.mpr (List.mem_finRange k)
  have hstate : order.foldl (State.writeBlockWord ws) s = (List.finRange 16).foldl (State.writeBlockWord ws) s :=
    hperm.foldl_eq' (fun i _ k _ t => writeBlockWord_comm ws t i k) s
  have hwrblk : runTurns ((wrblk ws).map fun op => hostTurn op.command) s =
      .next (order.foldl (State.writeBlockWord ws) s) := by
    rw [wrblk_turns, runTurns_blockWords ws _ hp, hstate]
  exact ⟨_, runTurns_blockWords ws order hp, hwrblk, writeBlockWords_m_eq ws hall s, writeBlockWords_mmask_eq ws hall s⟩

end Sys2Proof.Machine
end

section
/-! Lines of the assembler (30_encoding.md R62). -/

namespace Sys2Proof.Machine

open Sys2Proof

/-- Settles O46: each line is evaluated by the assembler. -/
theorem assemblerLinesEncodeAsTheSpecSays : Obligations.AssemblerLinesEncodeAsTheSpecSays :=
  ⟨rfl, rfl, rfl, rfl⟩

end Sys2Proof.Machine
end

section
/-! The control of the engine (40_datapath.md R74): PHASE and j after an engine turn are a function of PHASE and j alone. -/

namespace Sys2Proof.Machine

open Sys2Proof

/-- R74: the engine's control, PHASE and j: all that decides which step it takes next. -/
def State.control (s : State) : Phase × BitVec 7 := (s.phase, s.j)

/-- R79, R80, R83, R85: the control after an engine turn, from the control alone. -/
def nextControl : Phase × BitVec 7 → Phase × BitVec 7
  | (.idle, j) => (.idle, j)
  | (.load, _) => (.round, 0)
  | (.round, j) => (if j + 1 = 64 then .accum else .round, j + 1)
  | (.accum, j) => (.idle, j)

/-- R74: an engine turn moves the control as its function says, whatever the data. -/
theorem engineStep_control {s t : State} (h : engineStep s = .next t) : t.control = nextControl s.control := by
  obtain ⟨hp, rfl⟩ | ⟨hp, rfl⟩ | ⟨hp, j, -, rfl⟩ | ⟨hp, rfl⟩ := engineStep_next h
  · simp [State.control, nextControl, hp]
  · simp [State.control, nextControl, hp]
  · simp [State.control, nextControl, hp, afterRound]
  · simp [State.control, nextControl, hp]

/-- R74: under the invariant the engine completes any number of turns, and they iterate the function of its control. -/
theorem runTurns_engineTurns_control (n : Nat) {s : State} (hs : s.Inv) :
    ∃ t, runTurns (List.replicate n engineTurn) s = .next t ∧ t.control = nextControl^[n] s.control := by
  induction n generalizing s with
  | zero => exact ⟨s, rfl, rfl⟩
  | succ n ih =>
    obtain ⟨s₁, h₁⟩ := takeTurn_answers_next hs engineTurn
    obtain ⟨t, ht, hc⟩ := ih (takeTurn_keeps_inv hs h₁)
    rw [engineStep_control h₁, ← Function.iterate_succ_apply] at hc
    exact ⟨t, by rw [List.replicate_succ, runTurns_cons_next h₁, ht], hc⟩

/-- Settles O31: equal controls stay equal through every engine turn. -/
theorem engineControlIsIndependentOfData : Obligations.EngineControlIsIndependentOfData := by
  intro n s s' hs hs' hphase hj
  obtain ⟨t, ht, hc⟩ := runTurns_engineTurns_control n hs
  obtain ⟨t', ht', hc'⟩ := runTurns_engineTurns_control n hs'
  have hstart : s.control = s'.control := Prod.ext hphase hj
  have hend : t.control = t'.control := by rw [hc, hc', hstart]
  exact ⟨t, t', ht, ht', congrArg Prod.fst hend, congrArg Prod.snd hend⟩

end Sys2Proof.Machine
end

section
/-! The functions of the datapath, bit by bit (40_datapath.md R64 to R72). -/

namespace Sys2Proof.Machine

open Sys2Proof

/-! ### Addition, rotation and shift (R64 to R66) -/

/-- R65: for its amounts 0..31 it is the library's rotation. -/
theorem rotr_eq_rotateRight (x : Word) {n : Nat} (hn : n < 32) : rotr x n = x.rotateRight n :=
  (BitVec.rotateRight_eq_rotateRightAux_of_lt hn).symm

/-- R65: "bit i of the result is bit (i + n) mod 32 of x". -/
theorem rotr_getLsbD (x : Word) {n : Nat} (hn : n < 32) (i : Fin 32) :
    (rotr x n).getLsbD i.val = x.getLsbD ((i.val + n) % 32) := by
  rw [rotr_eq_rotateRight x hn, BitVec.getLsbD_rotateRight, Nat.mod_eq_of_lt hn]
  by_cases h : i.val < 32 - n
  · have hbit : (i.val + n) % 32 = n + i.val := by omega
    rw [hbit]
    simp only [h, decide_true, cond_true]
  · have hbit : (i.val + n) % 32 = i.val - (32 - n) := by omega
    rw [hbit]
    simp only [h, decide_false, cond_false, i.isLt, decide_true, Bool.true_and]

/-- R66: bit i of the result is bit i + n of x, 0 beyond bit 31. -/
theorem shr_getLsbD (x : Word) (n i : Nat) : (shr x n).getLsbD i = x.getLsbD (i + n) := by
  rw [shr, BitVec.getLsbD_ushiftRight, Nat.add_comm]

/-- Settles O38: the library's sum, rotation and shift on words. -/
theorem addRotateAndShiftAreTheSpecs : Obligations.AddRotateAndShiftAreTheSpecs :=
  ⟨fun x y => ⟨BitVec.toNat_add x y, BitVec.add_comm x y⟩, BitVec.add_assoc, fun x n i => rotr_getLsbD x n.isLt i,
    fun x n => by rw [shr, BitVec.toNat_ushiftRight, Nat.shiftRight_eq_div_pow]⟩

/-- Settles O39: the formulas of R67 to R70, read through the bits of exclusive or, rotation and shift. -/
theorem sigmaFunctionsBitByBit : Obligations.SigmaFunctionsBitByBit := by
  intro x i r
  refine ⟨?_, ?_, ?_, ?_⟩
  · simp (disch := decide) only [smallSigma0, BitVec.getLsbD_xor, rotr_getLsbD, shr_getLsbD, r]
  · simp (disch := decide) only [smallSigma1, BitVec.getLsbD_xor, rotr_getLsbD, shr_getLsbD, r]
  · simp (disch := decide) only [bigSigma0, BitVec.getLsbD_xor, rotr_getLsbD, r]
  · simp (disch := decide) only [bigSigma1, BitVec.getLsbD_xor, rotr_getLsbD, r]

/-! ### Ch and Maj (R71, R72) -/

/-- R71: "Each result bit is y's bit where x's bit is 1, and z's bit where x's bit is 0". -/
theorem choose_getLsbD (x y z : Word) {i : Nat} (hi : i < 32) :
    (choose x y z).getLsbD i = if x.getLsbD i = true then y.getLsbD i else z.getLsbD i := by
  simp only [choose, BitVec.getLsbD_xor, BitVec.getLsbD_and, BitVec.getLsbD_not, hi, decide_true, Bool.true_and]
  cases x.getLsbD i
  · exact Bool.false_xor _
  · exact Bool.xor_false _

/-- R72: "Each result bit is the majority of the three input bits". -/
theorem majority_getLsbD (x y z : Word) (i : Nat) :
    (majority x y z).getLsbD i = true ↔ 2 ≤ (x.getLsbD i).toNat + (y.getLsbD i).toNat + (z.getLsbD i).toNat := by
  have hbits : ∀ a b c : Bool, ((a && b) ^^ (a && c) ^^ (b && c)) = true ↔ 2 ≤ a.toNat + b.toNat + c.toNat := by decide
  rw [majority, BitVec.getLsbD_xor, BitVec.getLsbD_xor, BitVec.getLsbD_and, BitVec.getLsbD_and, BitVec.getLsbD_and, hbits]

/-- A word is Ch of three words when its bits are the ones that x's bits choose. -/
theorem choose_eq {x y z r : Word}
    (h : ∀ i, i < 32 → (if x.getLsbD i = true then y.getLsbD i else z.getLsbD i) = r.getLsbD i) : choose x y z = r :=
  BitVec.eq_of_getLsbD_eq fun i hi => (choose_getLsbD x y z hi).trans (h i hi)

/-- A word is Maj of three words when its bits are the majorities. -/
theorem majority_eq {x y z r : Word}
    (h : ∀ i, i < 32 → (2 ≤ (x.getLsbD i).toNat + (y.getLsbD i).toNat + (z.getLsbD i).toNat ↔ r.getLsbD i = true)) :
    majority x y z = r :=
  BitVec.eq_of_getLsbD_eq fun i hi => Bool.eq_iff_iff.mpr ((majority_getLsbD x y z i).trans (h i hi))

/-- Every bit of the word of ones is 1. -/
theorem ones_getLsbD {i : Nat} (hi : i < 32) : (0xFFFFFFFF : Word).getLsbD i = true :=
  (BitVec.getLsbD_allOnes (v := 32)).trans (decide_eq_true hi)

/-- Settles O40: every clause bit by bit, through the one bit of Ch and the one bit of Maj. -/
theorem chooseAndMajorityBitByBit : Obligations.ChooseAndMajorityBitByBit := by
  refine ⟨fun x y z i => ⟨choose_getLsbD x y z i.isLt, majority_getLsbD x y z i.val⟩,
    fun x y z => ⟨?_, ?_, ?_, ?_⟩, fun x y z => ⟨?_, ?_, ?_, ?_⟩⟩
  · exact choose_eq fun i hi => if_pos (ones_getLsbD hi)
  · exact choose_eq fun i _ => if_neg (by simp)
  · exact choose_eq fun i _ => ite_self _
  · refine choose_eq fun i hi => ?_
    simp only [BitVec.getLsbD_or, BitVec.getLsbD_and, BitVec.getLsbD_not, hi, decide_true, Bool.true_and]
    cases x.getLsbD i <;> simp
  · refine majority_eq fun i _ => ?_
    cases x.getLsbD i <;> cases z.getLsbD i <;> decide
  · refine majority_eq fun i hi => ?_
    have hzero : (0 : Word).getLsbD i = false := BitVec.getLsbD_zero
    rw [ones_getLsbD hi, hzero]
    cases z.getLsbD i <;> decide
  · exact majority_eq fun i _ => by rw [majority_getLsbD, Nat.add_comm (x.getLsbD i).toNat]
  · exact majority_eq fun i _ => by rw [majority_getLsbD, Nat.add_right_comm]

end Sys2Proof.Machine
end

section
/-! The round constants (40_datapath.md R73): the 64 primes and their cube roots. -/

namespace Sys2Proof.Machine

open Sys2Proof

/-- A number below `b ^ 2` is prime when nothing below `b` but 1 and itself divides it. -/
theorem prime_iff_of_lt_sq {b n : Nat} (h : n < b ^ 2) : n.Prime ↔ 2 ≤ n ∧ ∀ m < b, 2 ≤ m → m ∣ n → m = n := by
  refine ⟨fun hp => ⟨hp.two_le, fun m _ hm hd => ?_⟩, fun ⟨h2, hd⟩ => ?_⟩
  · exact (hp.eq_one_or_self_of_dvd m hd).resolve_left (by omega)
  · by_contra hp
    have hsq : n.minFac ^ 2 ≤ n := Nat.minFac_sq_le_self (by omega) hp
    have hlt : n.minFac < b := lt_of_pow_lt_pow_left₀ 2 b.zero_le (hsq.trans_lt h)
    have hmin : n.minFac.Prime := Nat.minFac_prime (by omega)
    exact hp (hd n.minFac hlt hmin.two_le n.minFac_dvd ▸ hmin)

/-- R73: the first 64 primes. -/
def roundPrimes : List Nat :=
  [2, 3, 5, 7, 11, 13, 17, 19, 23, 29, 31, 37, 41, 43, 47, 53, 59, 61, 67, 71, 73, 79, 83, 89, 97, 101, 103, 107, 109, 113,
   127, 131, 137, 139, 149, 151, 157, 163, 167, 173, 179, 181, 191, 193, 197, 199, 211, 223, 227, 229, 233, 239, 241, 251,
   257, 263, 269, 271, 277, 281, 283, 293, 307, 311]

/-- R73: they are the primes below 312, found by trial division below 18, in 13 rows of 24 numbers to keep
the evaluation shallow. -/
theorem mem_roundPrimes_iff {n : Nat} (h : n < 312) : n ∈ roundPrimes ↔ n.Prime := by
  have htable : ∀ (q : Fin 13) (r : Fin 24), 24 * q.val + r.val ∈ roundPrimes ↔
      2 ≤ 24 * q.val + r.val ∧ ∀ m < 18, 2 ≤ m → m ∣ 24 * q.val + r.val → m = 24 * q.val + r.val := by decide
  rw [prime_iff_of_lt_sq (b := 18) (by omega)]
  have hn := htable ⟨n / 24, by omega⟩ ⟨n % 24, by omega⟩
  rwa [Nat.div_add_mod] at hn

/-- R73: floor(cbrt(p * 2^96)) for the j-th prime p: the whole part of its cube root, which is the number of cubes up to p,
over the 32 bits of K[j]. -/
def kRoot (j : Fin 64) : Nat :=
  (List.range 6).countP (fun a => (a + 1) ^ 3 ≤ roundPrimes.getD j.val 0) * 2 ^ 32 + (romK j).toNat

/-- R73: K[j] is the root modulo 2^32. -/
theorem romK_eq_ofNat_kRoot (j : Fin 64) : romK j = BitVec.ofNat 32 (kRoot j) := by
  have hlt := (romK j).isLt
  apply BitVec.eq_of_toNat_eq
  rw [BitVec.toNat_ofNat, kRoot]
  omega

/-- R73: the root is the cube root rounded down. -/
theorem kRoot_bounds : ∀ j : Fin 64,
    kRoot j ^ 3 ≤ roundPrimes.getD j.val 0 * 2 ^ 96 ∧ roundPrimes.getD j.val 0 * 2 ^ 96 < (kRoot j + 1) ^ 3 := by decide

/-- Settles O41, by the primes below 312 and the bounds of the 64 roots. -/
theorem roundConstantsAreTheCubeRoots : Obligations.RoundConstantsAreTheCubeRoots := by
  refine ⟨rfl, by decide, fun n => mem_roundPrimes_iff, fun j => ?_⟩
  obtain ⟨hle, hlt⟩ := kRoot_bounds j
  exact ⟨kRoot j, hle, hlt, romK_eq_ofNat_kRoot j⟩

end Sys2Proof.Machine
end

section
/-! The initialisation and block-load commands NOP, INIT and WRM as whole next states (41_init_and_load.md R75 to R77). -/

namespace Sys2Proof.Machine

open Sys2Proof

/-- R55: a word of M is the one that a 4-bit index names exactly where its number is the index's value. -/
theorem ite_eq_blockIndex {α : Type} (idx : BitVec 4) (k : Fin 16) (x y : α) :
    (if k = blockIndex idx then x else y) = if k.val = idx.toNat then x else y :=
  if_congr Fin.ext_iff rfl rfl

/-- R62: a command word without reserved bits is `(OP << 12) | i`. -/
theorem packCommand_zero (op idx : BitVec 4) : packCommand op 0 idx = (op.setWidth 16 <<< 12) ||| idx.setWidth 16 := by
  apply BitVec.eq_of_getLsbD_eq
  intro i hi
  simp only [packCommand, BitVec.getLsbD_append, BitVec.getLsbD_or]
  interval_cases i <;> simp

/-- R75: NOP is accepted in every state. -/
theorem exec_nop (s : State) : exec .nop s = .next (s.respond 0) := rfl

/-- Settles O7: NOP has no check and one effect, the result 0; the word 0x0000 decodes to it whatever its data. -/
theorem nopCompletesInEveryState : Obligations.NopCompletesInEveryState := by
  refine ⟨exec_nop, fun d s => ?_⟩
  have hdecode : decode ⟨0x0000, d⟩ = .ok .nop := decode_of_cmd_eq_encode (i := .nop) rfl rfl
  exact (transact_ok hdecode s).trans (exec_nop s)

/-- Settles O8: INIT has the one check of BUSY; while idle it begins a hash computation. -/
theorem initBeginsAHashComputation : Obligations.InitBeginsAHashComputation := by
  refine ⟨fun d => ?decodes, fun s hp => exec_init_idle hp, fun s hp => ?busy⟩
  case decodes => exact decode_of_cmd_eq_encode (i := .init) rfl rfl
  case busy => exact exec_busy rfl hp Instr.noConfusion Instr.noConfusion

/-- Settles O9: WRM has the one check of BUSY; while idle it writes the word, the bit of MMASK and the mark of its index. -/
theorem wrmStoresOneWord : Obligations.WrmStoresOneWord := by
  refine ⟨fun idx d => ?decodes,
    fun idx d s hp => ⟨_, exec_wrm_idle hp idx d, fun k => ?word, fun k => ?bit, fun k => ?mark, ?frame⟩,
    fun idx d s hp => ?busy⟩
  case decodes => exact decode_of_cmd_eq_encode (i := .wrm idx d) rfl (packCommand_zero 2 idx).symm
  case word => exact (writeM_m_getElem s (blockIndex idx) k d).trans (ite_eq_blockIndex idx k _ _)
  case bit => exact (writeM_mmask_getLsbD s (blockIndex idx) k d).trans (ite_eq_blockIndex idx k _ _)
  case mark => exact (writeM_held_m_getElem s (blockIndex idx) k d).trans (ite_eq_blockIndex idx k _ _)
  case frame => rfl
  case busy => exact exec_busy rfl hp Instr.noConfusion Instr.noConfusion

end Sys2Proof.Machine
end

section
/-! The command COMPRESS and the engine's three steps, each as a whole next state, and how many engine steps a block takes
(42_compress_engine.md R78 to R85). -/

namespace Sys2Proof.Machine

open Sys2Proof

/-! ### The engine's step in each phase (R79) -/

theorem engineStep_load {s : State} (hp : s.phase = .load) : engineStep s = .next (afterLoad s) := by
  simp only [engineStep, hp, loadStep_eq]

theorem engineStep_round {s : State} {j : Fin 64} (hp : s.phase = .round) (hj : s.j.toNat = j.val) :
    engineStep s = .next (afterRound s j) := by
  simp only [engineStep, hp, roundStep_eq hj]

/-- Log 6: beyond round 63 there is no round. -/
theorem engineStep_noSuchRound {s : State} (hp : s.phase = .round) (hj : 64 ≤ s.j.toNat) :
    engineStep s = .fault .noSuchRound := by
  simp only [engineStep, hp, roundStep_fault hj]

/-! ### The schedule and the working variables after a step (R80 to R82) -/

@[simp] theorem afterLoad_w (s : State) : (afterLoad s).w = withHead s.m s.w := by simp [afterLoad]
@[simp] theorem afterLoad_v (s : State) : (afterLoad s).v = workingOfHash s.h := by simp [afterLoad]
@[simp] theorem afterLoad_held_w (s : State) : (afterLoad s).held.w = withHeadHeld s.held.w := by simp [afterLoad]

@[simp] theorem afterRound_v (s : State) (j : Fin 64) :
    (afterRound s j).v = roundUpdate s.v (romK j) (roundWord s j) := by simp [afterRound]

theorem afterRound_w_getElem (s : State) (j k : Fin 64) :
    (afterRound s j).w[k.val] = if k = j then roundWord s j else s.w[k.val] := by
  simp only [afterRound, State.advance_w, State.writeWorking_w, expand_w_getElem]

theorem afterRound_held_w_getElem (s : State) (j k : Fin 64) :
    (afterRound s j).held.w[k.val] = if k = j ∧ 16 ≤ j.val then true else s.held.w[k.val] := by
  simp only [afterRound, State.advance_held_w, State.writeWorking_held_w, expand_held_w_getElem]

/-! ### The frame of a step: what it changes at most -/

/-- R80: LOAD changes W, a..h, j, PHASE and their marks at most. -/
theorem afterLoad_frame (s : State) : afterLoad s =
    { s with
      w := (afterLoad s).w, v := (afterLoad s).v, j := 0, phase := .round
      held := ⟨s.held.m, (afterLoad s).held.w, true, true⟩ } := by
  have hheld : (afterLoad s).held = ⟨s.held.m, (afterLoad s).held.w, true, true⟩ :=
    Held.eq_of_fields (by simp [afterLoad]) rfl (afterLoad_held_v s) (afterLoad_held_j s)
  apply State.eq_of_fields
  case hheld => exact hheld
  all_goals simp [afterLoad]

/-- R84: ROUND changes W, a..h, j, PHASE and their marks at most. -/
theorem afterRound_frame (s : State) (j : Fin 64) : afterRound s j =
    { s with
      w := (afterRound s j).w, v := (afterRound s j).v, j := (afterRound s j).j, phase := (afterRound s j).phase
      held := ⟨s.held.m, (afterRound s j).held.w, true, true⟩ } := by
  have hheld : (afterRound s j).held = ⟨s.held.m, (afterRound s j).held.w, true, true⟩ :=
    Held.eq_of_fields (by simp [afterRound]) rfl (afterRound_held_v s j) (afterRound_held_j s j)
  apply State.eq_of_fields
  case hheld => exact hheld
  all_goals simp [afterRound]

/-! ### The statements on one step -/

/-- Settles O26: the state after LOAD, field by field. -/
theorem loadStepLoadsScheduleAndWorkingVariables : Obligations.LoadStepLoadsScheduleAndWorkingVariables := by
  intro s hp
  refine ⟨afterLoad s, engineStep_load hp, fun k => ?schedule, ?working, fun k => ?marks, afterLoad_frame s⟩
  case schedule => rw [afterLoad_w, withHead_getElem]
  case working => exact afterLoad_v s
  case marks => rw [afterLoad_held_w, withHeadHeld_getElem]

/-- Settles O27: the state after ROUND, field by field; the round reads the word that the expander leaves in W[j]. -/
theorem roundStepExpandsMixesAndAdvances : Obligations.RoundStepExpandsMixesAndAdvances := by
  intro s j hp hj
  refine ⟨afterRound s j, engineStep_round hp hj, ?_⟩
  intro wj t1 t2
  have hwj : roundWord s j = wj := rfl
  refine ⟨fun k => ?schedule, ?working, ?counter, ?phase, fun k => ?marks, afterRound_frame s j⟩
  case schedule => rw [afterRound_w_getElem, hwj]
  case working => rw [afterRound_v, hwj]; rfl
  case counter => exact afterRound_j_toNat hj
  case phase => rw [afterRound_phase hj, hp]
  case marks => exact afterRound_held_w_getElem s j k

/-- Settles O28: the state after ACCUM. -/
theorem accumStepAddsIntoTheHashState : Obligations.AccumStepAddsIntoTheHashState :=
  fun _ hp => engineStep_accum hp

/-- Settles O25: the one read that can stop is that of the round number, in ROUND. -/
theorem engineStopsOnlyBeyondRound63 : Obligations.EngineStopsOnlyBeyondRound63 := by
  refine fun s => ⟨engineStep_noSuchRound, fun h => engineStep_answers_next fun hp => ?_⟩
  exact h.resolve_left (not_not_intro hp)

/-- Settles O10: COMPRESS is performed where its three checks pass, and otherwise rejected by the first that fails. -/
theorem compressStartsABlockCompression : Obligations.CompressStartsABlockCompression := by
  refine ⟨fun d => ?decodes, fun s hp hv hm => ?accepted, fun s hp => ?busy, fun s hp hv => ?noInit,
    fun s hp hv hm => ?incomplete⟩
  case decodes => exact decode_of_cmd_eq_encode (i := .compress) rfl rfl
  case accepted => exact exec_compress_full hp hv hm
  case busy => exact exec_busy rfl hp Instr.noConfusion Instr.noConfusion
  case noInit => exact exec_noInit rfl hp hv (.inl rfl)
  case incomplete => exact exec_compress_incomplete hp hv hm

/-! ### The engine's control from LOAD to IDLE (R79) -/

/-- R83: before round 63 the counter goes up within ROUND. -/
theorem nextControl_round {n : Nat} (hn : n < 63) :
    nextControl (.round, BitVec.ofNat 7 n) = (.round, BitVec.ofNat 7 (n + 1)) := by
  have hnext : BitVec.ofNat 7 n + 1 = BitVec.ofNat 7 (n + 1) := BitVec.ofNat_add_ofNat n 1
  have hne : BitVec.ofNat 7 (n + 1) ≠ 64 := by bv_omega
  simp only [nextControl, hnext, if_neg hne]

/-- R80, R83: n steps after LOAD the engine is in round n. -/
theorem nextControl_iterate_round (j : BitVec 7) {n : Nat} (hn : n < 64) :
    nextControl^[n + 1] (.load, j) = (.round, BitVec.ofNat 7 n) := by
  induction n with
  | zero => rfl
  | succ n ih => rw [Function.iterate_succ_apply', ih (by omega), nextControl_round (by omega)]

/-- R83: the 64 rounds end in ACCUM. -/
theorem nextControl_iterate_accum (j : BitVec 7) : nextControl^[65] (.load, j) = (.accum, 64) := by
  rw [Function.iterate_succ_apply', nextControl_iterate_round j (by omega)]
  rfl

/-- R85: and ACCUM in IDLE. -/
theorem nextControl_iterate_idle (j : BitVec 7) : nextControl^[66] (.load, j) = (.idle, 64) := by
  rw [Function.iterate_succ_apply', nextControl_iterate_accum]
  rfl

/-- R79: fewer steps leave the engine busy. -/
theorem nextControl_iterate_busy (j : BitVec 7) {n : Nat} (hn : n < 66) : (nextControl^[n] (.load, j)).1 ≠ .idle := by
  obtain _ | n := n
  · exact Phase.noConfusion
  obtain hn | rfl : n < 64 ∨ n = 64 := by omega
  · rw [nextControl_iterate_round j hn]; exact Phase.noConfusion
  · rw [nextControl_iterate_accum]; exact Phase.noConfusion

/-- Settles O29: the engine turns iterate the control, whose 66th iterate from LOAD is the first that is idle. -/
theorem sixtySixEngineStepsLeadBackToIdle : Obligations.SixtySixEngineStepsLeadBackToIdle := by
  intro s hs hp
  have hstart : s.control = (.load, s.j) := Prod.ext hp rfl
  have run (n : Nat) : ∃ t, runTurns (List.replicate n engineTurn) s = .next t ∧
      t.phase = (nextControl^[n] (.load, s.j)).1 := by
    obtain ⟨t, ht, hc⟩ := runTurns_engineTurns_control n hs
    exact ⟨t, ht, by rw [← hstart, ← hc]; rfl⟩
  refine ⟨?idle, fun n hn => ?busy⟩
  case idle =>
    obtain ⟨t, ht, hphase⟩ := run 66
    exact ⟨t, ht, by rw [hphase, nextControl_iterate_idle]⟩
  case busy =>
    obtain ⟨t, ht, hphase⟩ := run n
    exact ⟨t, ht, hphase ▸ nextControl_iterate_busy s.j hn⟩

end Sys2Proof.Machine
end

section
/-! The message schedule: its head is the block, its other words are given by the recurrence, and the 16-word window holds the
same words (42_compress_engine.md R81, R86; 92_eei_decisions.md D23). -/

namespace Sys2Proof.Machine

open Sys2Proof

/-- R86: the (n+1)-st step of the expansion writes W[16 + n]. -/
theorem expandTo_succ (w : Vector Word 64) {n : Nat} (hn : 16 + n < 64) :
    expandTo w (n + 1) = (expandTo w n).set (16 + n)
      (expandWord (expandTo w n)[16 + n - 2] (expandTo w n)[16 + n - 7] (expandTo w n)[16 + n - 15]
        (expandTo w n)[16 + n - 16]) := by
  simp only [expandTo, dif_pos hn, expandAt]

/-- R86: no later step writes a word below 16 + n. -/
theorem expandTo_getElem_stable (w : Vector Word 64) {n m k : Nat} (hnm : n ≤ m) (hm : m ≤ 48) (hk : k < 16 + n) :
    (expandTo w m)[k]'(by omega) = (expandTo w n)[k]'(by omega) := by
  induction m, hnm using Nat.le_induction with
  | base => rfl
  | succ m hnm ih =>
    have hne : 16 + m ≠ k := by omega
    simp only [expandTo_succ w (show 16 + m < 64 by omega), Vector.getElem_set_ne _ _ hne]
    exact ih (by omega)

/-- R86: W[0..15] of the schedule is the block. -/
theorem messageSchedule_head (block : Vector Word 16) {k : Nat} (hk : k < 16) : (messageSchedule block)[k] = block[k] := by
  have hstable : (messageSchedule block)[k] = (scheduleHead block)[k] :=
    expandTo_getElem_stable (scheduleHead block) (Nat.zero_le 48) le_rfl hk
  rw [hstable, scheduleHead, withHead_getElem, dif_pos hk]

/-- R86: the words of the schedule from W[16] on meet the recurrence. -/
theorem messageSchedule_recurrence (block : Vector Word 16) {k : Nat} (hk : 16 ≤ k) (hlt : k < 64) :
    (messageSchedule block)[k] =
      expandWord (messageSchedule block)[k - 2] (messageSchedule block)[k - 7] (messageSchedule block)[k - 15]
        (messageSchedule block)[k - 16] := by
  obtain ⟨n, rfl⟩ := Nat.exists_eq_add_of_le hk
  have stable {m i : Nat} (hm : m ≤ 48) (hi : i < 16 + m) :
      (messageSchedule block)[i]'(by omega) = (expandTo (scheduleHead block) m)[i]'(by omega) :=
    expandTo_getElem_stable _ hm le_rfl hi
  rw [stable (m := n + 1) (by omega) (by omega), stable (m := n) (i := 16 + n - 2) (by omega) (by omega),
    stable (m := n) (i := 16 + n - 7) (by omega) (by omega), stable (m := n) (i := 16 + n - 15) (by omega) (by omega),
    stable (m := n) (i := 16 + n - 16) (by omega) (by omega)]
  simp only [expandTo_succ _ hlt, Vector.getElem_set_self]

/-! ### The window (D23) -/

/-- D23: a slide moves each word down by one. -/
theorem slideWindow_getElem (win : Vector Word 16) {k : Nat} (hk : k < 15) : (slideWindow win)[k] = win[k + 1] := by
  interval_cases k <;> rfl

/-- D23: and brings in the next word of the recurrence. -/
theorem slideWindow_last (win : Vector Word 16) : (slideWindow win)[15] = expandWord win[14] win[9] win[1] win[0] := rfl

/-- D23: the window after n slides is W[n..n+15]. -/
theorem windowAfter_getElem (block : Vector Word 16) {n : Nat} (hn : n ≤ 48) {k : Nat} (hk : k < 16) :
    (windowAfter block n)[k] = (messageSchedule block)[n + k] := by
  induction n generalizing k with
  | zero => simp only [windowAfter, Nat.zero_add, messageSchedule_head block hk]
  | succ n ih =>
    obtain hk15 | rfl : k < 15 ∨ k = 15 := by omega
    · simp only [windowAfter, slideWindow_getElem _ hk15, ih (by omega) (show k + 1 < 16 by omega), Nat.add_right_comm,
        Nat.add_assoc]
    · rw [messageSchedule_recurrence block (show 16 ≤ n + 1 + 15 by omega)]
      simp only [windowAfter, slideWindow_last, ih (by omega) (show 14 < 16 by omega), ih (by omega) (show 9 < 16 by omega),
        ih (by omega) (show 1 < 16 by omega), ih (by omega) (show 0 < 16 by omega)]
      rfl

/-- Settles O33, by induction on the slides. -/
theorem sixteenWordWindowGivesTheSameSchedule : Obligations.SixteenWordWindowGivesTheSameSchedule :=
  fun block n k => windowAfter_getElem block (by omega) k.isLt

end Sys2Proof.Machine
end

section
/-! The block compression as the engine runs it: where the engine stands after each of its steps, whatever the host does between
them, and that it ends in the block function (42_compress_engine.md R86). -/

namespace Sys2Proof.Machine

open Sys2Proof

/-- R86: W[j] of the schedule and K[j] go into round j. -/
theorem rounds_succ (w : Vector Word 64) (x : Working) (j : Fin 64) :
    rounds w x (j.val + 1) = roundUpdate (rounds w x j.val) (romK j) w[j.val] := dif_pos j.isLt

/-- The words of the schedule that LOAD and the first n rounds have written are those of the message schedule. -/
def ScheduleWritten (block : Vector Word 16) (n : Nat) (w : Vector Word 64) : Prop :=
  ∀ k : Fin 64, k.val < 16 ∨ k.val < n → w[k.val] = (messageSchedule block)[k.val]

/-- R80: LOAD writes the head. -/
theorem scheduleWritten_withHead (block : Vector Word 16) (w : Vector Word 64) :
    ScheduleWritten block 0 (withHead block w) := by
  intro k hk
  have hlt : k.val < 16 := by omega
  rw [withHead_getElem, dif_pos hlt, messageSchedule_head block hlt]

/-- R81: the word of round j, whether LOAD or the expander wrote it, is W[j] of the message schedule. -/
theorem roundWord_eq_messageSchedule {block : Vector Word 16} {s : State} {j : Fin 64}
    (hw : ScheduleWritten block j.val s.w) : roundWord s j = (messageSchedule block)[j.val] := by
  unfold roundWord
  split
  · next h16 =>
    have written {k : Nat} (hk : k < j.val) : s.w[k]'(by omega) = (messageSchedule block)[k]'(by omega) :=
      hw ⟨k, by omega⟩ (.inr hk)
    rw [messageSchedule_recurrence block h16 j.isLt, written (by omega), written (by omega), written (by omega),
      written (by omega)]
  · next h16 => exact hw j (.inl (by omega))

/-- R84: round j leaves one more word of the schedule written. -/
theorem scheduleWritten_afterRound {block : Vector Word 16} {s : State} {j : Fin 64}
    (hw : ScheduleWritten block j.val s.w) : ScheduleWritten block (j.val + 1) (afterRound s j).w := by
  intro k hk
  rw [afterRound_w_getElem]
  split
  · next hkj => subst hkj; exact roundWord_eq_messageSchedule hw
  · next hkj => exact hw k (by omega)

/-! ### A block compression in flight -/

/-- Where the engine stands, n of its steps after COMPRESS was accepted with H = `hash` and M = `block`: before LOAD, before a
round, or before ACCUM. -/
inductive EngineAt (hash : Vector Word 8) (block : Vector Word 16) (s : State) : Nat → Prop
  | load (hp : s.phase = .load) : EngineAt hash block s 0
  | round (j : Fin 64) (hp : s.phase = .round) (hj : s.j.toNat = j.val)
      (hv : s.v = rounds (messageSchedule block) (workingOfHash hash) j.val) (hw : ScheduleWritten block j.val s.w) :
      EngineAt hash block s (j.val + 1)
  | accum (hp : s.phase = .accum) (hv : s.v = rounds (messageSchedule block) (workingOfHash hash) 64) :
      EngineAt hash block s 65

/-- The state while a block compression is in flight, n engine steps after COMPRESS was accepted with H = `hash`, M = `block`
and BCNT = `count`. -/
structure InFlight (hash : Vector Word 8) (block : Vector Word 16) (count : Word) (n : Nat) (s : State) : Prop where
  h : s.h = hash
  m : s.m = block
  bcnt : s.bcnt = count
  hvalid : s.hvalid = true
  mmask : s.mmask = 0
  engine : EngineAt hash block s n

section
variable {hash : Vector Word 8} {block : Vector Word 16} {count : Word} {n : Nat} {s t : State}

theorem EngineAt.busy (h : EngineAt hash block s n) : s.phase ≠ .idle := by
  cases h with
  | load hp | round _ hp | accum hp => simp [hp]

/-- R78: an accepted COMPRESS puts its block in flight. -/
theorem inFlight_beginBlock (hv : s.hvalid = true) : InFlight s.h s.m s.bcnt 0 (s.beginBlock.respond 0) :=
  ⟨rfl, rfl, rfl, hv, rfl, .load rfl⟩

/-- R101: while busy a transaction changes ERR and the result at most. -/
theorem transact_busy {c : Command} (hp : s.phase ≠ .idle) (h : transact c s = .next t) :
    ∃ err result, t = { s with err := err, result := result } := by
  cases takeTurn_effect (x := hostTurn c) h with
  | rejected | readout => exact ⟨_, _, rfl⟩
  | init _ _ _ hidle | wrm _ _ _ hidle | compress _ _ _ hidle => exact absurd hidle hp
  | reset hr => cases hr
  | stutter _ he | load _ he | round _ he | accum _ he => cases he

/-- R86 (b): a transaction does not show in a block in flight. -/
theorem InFlight.after_transact {c : Command} (hs : InFlight hash block count n s) (h : transact c s = .next t) :
    InFlight hash block count n t := by
  obtain ⟨hh, hm, hb, hv, hmm, hat⟩ := hs
  obtain ⟨err, result, rfl⟩ := transact_busy hat.busy h
  refine ⟨hh, hm, hb, hv, hmm, ?_⟩
  cases hat with
  | load hp => exact .load hp
  | round j hp hj hv hw => exact .round j hp hj hv hw
  | accum hp hv => exact .accum hp hv

/-- R80 to R84: LOAD and each round take a block in flight one step on. -/
theorem InFlight.after_engineStep (hs : InFlight hash block count n s) (hn : n < 65) :
    ∃ t, engineStep s = .next t ∧ InFlight hash block count (n + 1) t := by
  obtain ⟨rfl, rfl, rfl, hv, hm, hat⟩ := hs
  cases hat with
  | load hp =>
    refine ⟨afterLoad s, engineStep_load hp, by simp, by simp, by simp, by simp [hv], by simp [hm], ?_⟩
    exact .round 0 (by simp) (by simp) (by simp [rounds]) (by rw [afterLoad_w]; exact scheduleWritten_withHead _ _)
  | round j hp hj hx hw =>
    refine ⟨afterRound s j, engineStep_round hp hj, by simp, by simp, by simp, by simp [hv], by simp [hm], ?_⟩
    have hx' : (afterRound s j).v = rounds (messageSchedule s.m) (workingOfHash s.h) (j.val + 1) := by
      rw [afterRound_v, rounds_succ, hx, roundWord_eq_messageSchedule hw]
    have hphase := afterRound_phase hj
    by_cases h63 : j.val = 63
    · rw [h63] at hx' ⊢
      exact .accum (by simp [hphase, h63]) hx'
    · exact .round ⟨j.val + 1, by omega⟩ (by simp [hphase, h63, hp]) (afterRound_j_toNat hj) hx'
        (scheduleWritten_afterRound hw)
  | accum => omega

/-- R85: ACCUM, the 66th step, ends the block with its block function in H. -/
theorem InFlight.ends (hs : InFlight hash block count n s) (hn : n = 65) :
    ∃ t, engineStep s = .next t ∧ t.h = compress hash block ∧ t.bcnt = count + 1 ∧ t.phase = .idle ∧
      t.m = block ∧ t.hvalid = true ∧ t.mmask = 0 := by
  obtain ⟨rfl, rfl, rfl, hv, hm, hat⟩ := hs
  cases hat with
  | round j => omega
  | load => omega
  | accum hp hx =>
    exact ⟨afterAccum s, engineStep_accum hp, by rw [afterAccum_h, hx, compress], rfl, rfl, rfl, hv, hm⟩

end

/-! ### Runs without reset -/

/-- Whether a turn is the engine's. -/
def Turn.isEngine (x : Turn) : Bool := decide (x.event = .engine)

/-- R86 (b): along turns without reset a block in flight goes on by the engine's turns alone. -/
theorem InFlight.after_turns {hash : Vector Word 8} {block : Vector Word 16} {count : Word} {turns : List Turn} {n : Nat}
    {s : State} (hs : InFlight hash block count n s) (hreset : ∀ x ∈ turns, x.reset = false)
    (hn : n + turns.countP Turn.isEngine ≤ 65) :
    ∃ t, runTurns turns s = .next t ∧ InFlight hash block count (n + turns.countP Turn.isEngine) t := by
  induction turns generalizing n s with
  | nil => exact ⟨s, rfl, hs⟩
  | cons x rest ih =>
    obtain ⟨hx, hrest⟩ := List.forall_mem_cons.mp hreset
    cases he : x.event with
    | transaction c =>
      have hcount : (x :: rest).countP Turn.isEngine = rest.countP Turn.isEngine := by simp [Turn.isEngine, he]
      rw [hcount] at hn ⊢
      obtain ⟨s₁, h₁⟩ := transact_answers_next c s
      obtain ⟨t, ht, hfl⟩ := ih (hs.after_transact h₁) hrest hn
      exact ⟨t, by rw [runTurns_cons_next ((takeTurn_transaction hx he s).trans h₁), ht], hfl⟩
    | engine =>
      have hcount : (x :: rest).countP Turn.isEngine = rest.countP Turn.isEngine + 1 := by simp [Turn.isEngine, he]
      rw [hcount, ← Nat.add_assoc, Nat.add_right_comm] at hn ⊢
      obtain ⟨s₁, h₁, hs₁⟩ := hs.after_engineStep (by omega)
      obtain ⟨t, ht, hfl⟩ := ih hs₁ hrest hn
      exact ⟨t, by rw [runTurns_cons_next ((takeTurn_of_engine hx he s).trans h₁), ht], hfl⟩

/-- Settles O32: COMPRESS puts the block in flight, the turns between take it to ACCUM, and the last engine turn ends it. -/
theorem compressionEqualsTheBlockFunction : Obligations.CompressionEqualsTheBlockFunction := by
  intro s between _ hp hv hm hreset hcount
  have hdecode : decode ⟨0x3000, 0⟩ = .ok .compress := decode_of_cmd_eq_encode (i := .compress) rfl rfl
  have hstart : takeTurn (hostTurn ⟨0x3000, 0⟩) s = .next (s.beginBlock.respond 0) :=
    (transact_ok hdecode s).trans (exec_compress_full hp hv hm)
  have hcount65 : 0 + between.countP Turn.isEngine = 65 := (Nat.zero_add _).trans hcount
  obtain ⟨s₁, h₁, hfl⟩ := (inFlight_beginBlock hv).after_turns hreset hcount65.le
  obtain ⟨t, ht, hend⟩ := hfl.ends hcount65
  have hlast : takeTurn engineTurn s₁ = .next t := ht
  have hrun : runTurns (hostTurn ⟨0x3000, 0⟩ :: (between ++ [engineTurn])) s = .next t := by
    rw [runTurns_cons_next hstart, runTurns_append_next h₁, runTurns_cons_next hlast, runTurns_nil]
  exact ⟨t, hrun, hend⟩

end Sys2Proof.Machine
end

section
/-! The read-out commands RDH, RDSTAT and RDCNT as whole next states (43_readout.md R87 to R89). -/

namespace Sys2Proof.Machine

open Sys2Proof

/-! ### RDH (R87) -/

/-- R55, R87: the index operand of a hash word's number names that hash word. -/
theorem hashIndex_ofNat (i : Fin 8) : hashIndex (BitVec.ofNat 4 i.val) = some i := by
  revert i; decide

/-- R58 (d): an RDH of one of the eight hash words is well formed. -/
theorem rdh_ofNat_wf (i : Fin 8) : (Instr.rdh (BitVec.ofNat 4 i.val)).wf = true := by
  revert i; decide

/-- R62: the command word of `RDH i` is `0x4000 + i`. -/
theorem encode_rdh_cmd (i : Fin 8) : (encode (.rdh (BitVec.ofNat 4 i.val))).cmd = BitVec.ofNat 16 (0x4000 + i.val) := by
  revert i; decide

/-- R87: RDH answers the hash word its index names while idle with a hash state. -/
theorem exec_rdh_idle {idx : BitVec 4} {i : Fin 8} {s : State} (hi : hashIndex idx = some i) (hp : s.phase = .idle)
    (hv : s.hvalid = true) : exec (.rdh idx) s = .next (s.respond s.h[i.val]) := by
  simp only [exec, execRdh, hi, guarded_idle hp, guarded_hvalid hv, guarded_nil]

/-- R58 (d), log 10: an index that names no hash word is rejected before every other check. -/
theorem exec_rdh_illegal {idx : BitVec 4} (hi : 8 ≤ idx.toNat) (s : State) :
    exec (.rdh idx) s = .next (s.reject .illegal) := by
  have hnone : hashIndex idx = none := dif_neg hi.not_gt
  simp only [exec, execRdh, hnone]

/-- Settles O11: RDH is performed where both its checks pass, and otherwise rejected by the first that fails. -/
theorem rdhReturnsOneHashWord : Obligations.RdhReturnsOneHashWord := by
  refine ⟨fun i d => ?decodes, fun i s hp hv => ?accepted, fun i s hp => ?busy, fun i s hp hv => ?noInit,
    fun idx s hi => ?illegal⟩
  case decodes => exact decode_of_cmd_eq_encode (rdh_ofNat_wf i) (encode_rdh_cmd i).symm
  case accepted => exact exec_rdh_idle (hashIndex_ofNat i) hp hv
  case busy => exact exec_busy (rdh_ofNat_wf i) hp Instr.noConfusion Instr.noConfusion
  case noInit => exact exec_noInit (rdh_ofNat_wf i) hp hv (.inr ⟨_, rfl⟩)
  case illegal => exact exec_rdh_illegal hi s

/-! ### RDSTAT (R88) -/

/-- R24: BUSY as the comparison of PHASE it stands for. -/
theorem busy_eq_decide (s : State) : s.busy = decide (s.phase ≠ .idle) := by
  rw [Bool.eq_iff_iff, busy_eq_true, decide_eq_true_iff]

/-- R30: MFULL as the comparison of MMASK it stands for. -/
theorem mfull_eq_decide (s : State) : s.mfull = decide (s.mmask = 0xFFFF) := by
  rw [Bool.eq_iff_iff, mfull_eq_true, decide_eq_true_iff]

/-- R88: RDSTAT is accepted in every state. -/
theorem exec_rdstat (s : State) : exec .rdstat s = .next (s.respond s.status) := rfl

/-- Settles O12: RDSTAT has no check and one effect, the status word as the result; its two computed flags are the comparisons
of the pseudocode. -/
theorem rdstatReturnsTheStatusWord : Obligations.RdstatReturnsTheStatusWord := by
  refine ⟨fun d => ?decodes, fun s => ?completes⟩
  case decodes => exact decode_of_cmd_eq_encode (i := .rdstat) rfl rfl
  case completes => rw [exec_rdstat, State.respond, State.status, mfull_eq_decide, busy_eq_decide]

/-! ### RDCNT (R89) -/

/-- R89: RDCNT is accepted while idle, whatever HVALID is. -/
theorem exec_rdcnt_idle {s : State} (hp : s.phase = .idle) : exec .rdcnt s = .next (s.respond s.bcnt) := by
  simp only [exec, execRdcnt, guarded_idle hp, guarded_nil]

/-- Settles O14: RDCNT has the one check of BUSY; while idle it answers BCNT. -/
theorem rdcntReturnsTheBlockCount : Obligations.RdcntReturnsTheBlockCount := by
  refine ⟨fun d => ?decodes, fun s hp => exec_rdcnt_idle hp, fun s hp => ?busy⟩
  case decodes => exact decode_of_cmd_eq_encode (i := .rdcnt) rfl rfl
  case busy => exact exec_busy rfl hp Instr.noConfusion Instr.noConfusion

end Sys2Proof.Machine
end

section
/-! The padded message, its words and its blocks, and the bytes of a digest (45_host_framing.md R92 to R96). -/

namespace Sys2Proof.Machine

open Sys2Proof

/-! ### Words from bytes (R94) -/

/-- The value of two bit vectors one after the other. -/
theorem append_toNat {m n : Nat} (x : BitVec m) (y : BitVec n) : (x ++ y).toNat = x.toNat * 2 ^ n + y.toNat := by
  rw [BitVec.toNat_append, ← Nat.shiftLeft_add_eq_or_of_lt y.isLt, Nat.shiftLeft_eq]

/-- Four bytes or more begin with four bytes. -/
theorem exists_four_bytes {p : List Byte} (hp : 4 ≤ p.length) : ∃ b0 b1 b2 b3 rest, p = b0 :: b1 :: b2 :: b3 :: rest :=
  match p with
  | b0 :: b1 :: b2 :: b3 :: rest => ⟨b0, b1, b2, b3, rest, rfl⟩
  | [] | [_] | [_, _] | [_, _, _] => by simp at hp

/-- R94: 4N bytes are N words. -/
theorem pack_length {p : List Byte} {n : Nat} (hp : p.length = 4 * n) : (pack p).length = n := by
  induction n generalizing p with
  | zero => rw [List.eq_nil_of_length_eq_zero hp]; rfl
  | succ n ih =>
    obtain ⟨b0, b1, b2, b3, rest, rfl⟩ := exists_four_bytes (p := p) (by omega)
    simp only [List.length_cons] at hp
    rw [pack, List.length_cons, ih (by omega)]

/-- R94: the words of 4N bytes do not depend on the bytes after them. -/
theorem pack_append {p : List Byte} {n : Nat} (hp : p.length = 4 * n) (q : List Byte) :
    pack (p ++ q) = pack p ++ pack q := by
  induction n generalizing p with
  | zero => rw [List.eq_nil_of_length_eq_zero hp]; rfl
  | succ n ih =>
    obtain ⟨b0, b1, b2, b3, rest, rfl⟩ := exists_four_bytes (p := p) (by omega)
    simp only [List.length_cons] at hp
    simp only [List.cons_append, pack, ih (p := rest) (by omega)]

/-- R94: word k is made of bytes 4k to 4k+3. -/
theorem pack_getD {p : List Byte} {k : Nat} (hk : 4 * k + 3 < p.length) :
    (pack p).getD k 0 = p.getD (4 * k) 0 ++ p.getD (4 * k + 1) 0 ++ p.getD (4 * k + 2) 0 ++ p.getD (4 * k + 3) 0 := by
  induction k generalizing p with
  | zero =>
    obtain ⟨b0, b1, b2, b3, rest, rfl⟩ := exists_four_bytes (p := p) (by omega)
    rfl
  | succ k ih =>
    obtain ⟨b0, b1, b2, b3, rest, rfl⟩ := exists_four_bytes (p := p) (by omega)
    simp only [List.length_cons] at hk
    exact ih (p := rest) (by omega)

/-! ### Blocks from words (R94) -/

/-- R94: n blocks are taken. -/
theorem blocksOf_length (ws : List Word) (n : Nat) : (blocksOf ws n).length = n := by
  induction n generalizing ws with
  | zero => rfl
  | succ n ih => rw [blocksOf, List.length_cons, ih]

/-- R94: word i of block b is word 16b + i. -/
theorem blocksOf_getElem {ws : List Word} {n b : Nat} {block : Vector Word 16} (hlen : 16 * n ≤ ws.length)
    (hb : (blocksOf ws n)[b]? = some block) (i : Fin 16) : ws[16 * b + i.val]? = some block[i.val] := by
  induction n generalizing ws b with
  | zero => simp [blocksOf] at hb
  | succ n ih =>
    cases b with
    | zero =>
      obtain rfl : blockOf (ws.take 16) = block := by simpa [blocksOf] using hb
      have hi : i.val < ws.length := by omega
      simp [blockOf, hi]
    | succ b =>
      have hword := ih (ws := ws.drop 16) (by rw [List.length_drop]; omega) (by simpa [blocksOf] using hb)
      rwa [List.getElem?_drop, ← Nat.add_assoc, Nat.add_comm 16, ← Nat.mul_succ] at hword

/-- R94: word i of block b of a message is word 16b + i of its packed padding. -/
theorem messageBlocks_getElem {m : List Byte} {b : Nat} {block : Vector Word 16} (hb : (messageBlocks m)[b]? = some block)
    (i : Fin 16) : (pack (pad m))[16 * b + i.val]? = some block[i.val] :=
  blocksOf_getElem (Nat.mul_div_le _ 16) hb i

/-- Settles O48: four bytes one after the other are the word of R94's sum, and a block is sixteen words one after the other. -/
theorem packingIsBigEndian : Obligations.PackingIsBigEndian := by
  refine ⟨fun p n hp => ⟨pack_length hp, fun k hk => ?word⟩, fun m b i block hb => messageBlocks_getElem hb i⟩
  rw [pack_getD (by omega), append_toNat, append_toNat, append_toNat]
  omega

/-! ### The padding (R92, R93) -/

/-- R93: the zeros fill the last block. -/
theorem length_add_zeroCount (len : Nat) : len + 9 + zeroCount len = 64 * blockCount len := by
  unfold zeroCount blockCount
  omega

theorem bytesOf64_length (x : BitVec 64) : (bytesOf64 x).length = 8 := rfl

/-- R92, R93: the padded message is n whole blocks. -/
theorem pad_length (m : List Byte) : (pad m).length = 64 * blockCount m.length := by
  rw [← length_add_zeroCount]
  simp only [pad, List.length_append, List.length_replicate, List.length_singleton, bytesOf64_length]
  omega

/-- R93, R94: the blocks of a message. -/
theorem messageBlocks_length (m : List Byte) : (messageBlocks m).length = blockCount m.length := by
  have hwords : (pack (pad m)).length = 16 * blockCount m.length := pack_length (by rw [pad_length]; omega)
  rw [messageBlocks, blocksOf_length, hwords, Nat.mul_div_cancel_left _ (by decide)]

/-- Four neighbouring bytes of a value are one word of it. -/
theorem extract_four_bytes {w : Nat} (x : BitVec w) (k : Nat) :
    x.extractLsb' (k + 24) 8 ++ x.extractLsb' (k + 16) 8 ++ x.extractLsb' (k + 8) 8 ++ x.extractLsb' k 8 =
      x.extractLsb' k 32 := by
  rw [BitVec.extractLsb'_append_extractLsb'_eq_extractLsb' (show k + 24 = k + 16 + 8 from rfl),
    BitVec.extractLsb'_append_extractLsb'_eq_extractLsb' (show k + 16 = k + 8 + 8 from rfl),
    BitVec.extractLsb'_append_extractLsb'_eq_extractLsb' rfl]

/-- R92: the eight bytes of a 64-bit value are its two words. -/
theorem pack_bytesOf64 (x : BitVec 64) : pack (bytesOf64 x) = [x.extractLsb' 32 32, x.extractLsb' 0 32] := by
  rw [← extract_four_bytes x 32, ← extract_four_bytes x 0]
  rfl

/-- The two words of a 64-bit value make it up. -/
theorem two_words_toNat (x : BitVec 64) :
    (x.extractLsb' 32 32).toNat * 2 ^ 32 + (x.extractLsb' 0 32).toNat = x.toNat := by
  rw [← append_toNat, BitVec.extractLsb'_append_extractLsb'_eq_extractLsb' (show 32 = 0 + 32 from rfl)]
  exact congrArg BitVec.toNat BitVec.extractLsb'_eq_self

/-- R92: the padded message's words end with the two words of the length in bits. -/
theorem pack_pad (m : List Byte) :
    ∃ ws, ws.length = 16 * ((m.length + 8) / 64) + 14 ∧
      pack (pad m) = ws ++ [(BitVec.ofNat 64 (m.length * 8)).extractLsb' 32 32,
        (BitVec.ofNat 64 (m.length * 8)).extractLsb' 0 32] := by
  have hbytes : (m ++ [0x80] ++ List.replicate (zeroCount m.length) 0).length =
      4 * (16 * ((m.length + 8) / 64) + 14) := by
    have hz := length_add_zeroCount m.length
    unfold blockCount at hz
    simp only [List.length_append, List.length_replicate, List.length_singleton]
    omega
  exact ⟨_, pack_length hbytes, by rw [pad, pack_append hbytes, pack_bytesOf64]⟩

/-- R92: words 14 and 15 of the last block are the length in bits. -/
theorem messageBlocks_getLast {m : List Byte} (hm : m.length < 2 ^ 61) :
    ∃ b, (messageBlocks m).getLast? = some b ∧ b[14].toNat * 2 ^ 32 + b[15].toNat = m.length * 8 := by
  obtain ⟨b, hb⟩ : ∃ b, (messageBlocks m)[(m.length + 8) / 64]? = some b :=
    ⟨_, List.getElem?_eq_getElem (by rw [messageBlocks_length]; exact Nat.lt_succ_self _)⟩
  obtain ⟨ws, hlen, hws⟩ := pack_pad m
  have h14 := messageBlocks_getElem hb 14
  have h15 := messageBlocks_getElem hb 15
  rw [hws, List.getElem?_append_right (by simp [hlen])] at h14 h15
  simp only [hlen, Nat.add_sub_add_left] at h14 h15
  refine ⟨b, ?_, ?_⟩
  · rw [List.getLast?_eq_getElem?, messageBlocks_length, blockCount, Nat.add_sub_cancel, hb]
  · have hhigh : (BitVec.ofNat 64 (m.length * 8)).extractLsb' 32 32 = b[14] := Option.some.inj h14
    have hlow : (BitVec.ofNat 64 (m.length * 8)).extractLsb' 0 32 = b[15] := Option.some.inj h15
    rw [← hhigh, ← hlow, two_words_toNat, BitVec.toNat_ofNat, Nat.mod_eq_of_lt (by omega)]

/-- Settles O47: the lengths and the last words are the lemmas above, and R93's forms of z are one by arithmetic on its
definition. -/
theorem paddingIsTheSpecs : Obligations.PaddingIsTheSpecs := by
  intro m
  refine ⟨rfl, pad_length m, ?formula, ?bound, ?multiple, fun z hz => ?least, messageBlocks_length m, messageBlocks_getLast⟩
  all_goals unfold zeroCount; omega

/-! ### The digest (R96) -/

/-- R96: each word is four bytes. -/
theorem serializeWords_length (ws : List Word) : (serializeWords ws).length = 4 * ws.length := by
  induction ws with
  | nil => rfl
  | cons w ws ih =>
    have hcons : serializeWords (w :: ws) = bytesOfWord w ++ serializeWords ws := rfl
    rw [hcons, List.length_append, ih, List.length_cons, Nat.mul_succ, Nat.add_comm]
    rfl

/-- R96: byte k of word i, counted from the most significant. -/
theorem serializeWords_getD {ws : List Word} {i : Nat} (hi : i < ws.length) (k : Fin 4) :
    (serializeWords ws).getD (4 * i + k.val) 0 = ws[i].extractLsb' (24 - 8 * k.val) 8 := by
  induction ws generalizing i with
  | nil => simp at hi
  | cons w ws ih =>
    cases i with
    | zero => fin_cases k <;> rfl
    | succ i =>
      rw [show 4 * (i + 1) + k.val = 4 * i + k.val + 4 by omega]
      exact ih (Nat.lt_of_succ_lt_succ hi)

/-- Settles O49: byte 4i + k is byte k of word i, and the words are those of H in state order. -/
theorem serialisationIsBigEndian : Obligations.SerialisationIsBigEndian := by
  intro hash
  refine ⟨by rw [serialize, serializeWords_length, Vector.length_toList], fun i k => ?_⟩
  rw [serialize, serializeWords_getD (by simp) k, Vector.getElem_toList]

end Sys2Proof.Machine
end

section
/-! One move of a rig, and the two claims about a driver that has ended: it makes no transaction and holds no hash words
(45_host_framing.md R91, R95, R99; 90_conflicts.md C6). -/

namespace Sys2Proof.Machine

open Sys2Proof

/-! ### One move -/

section
variable {d : Driver} {s t : State} {op : DriverOp} {rest : List DriverOp} {hw : List Word}

/-- R95: a line with a transaction makes it and looks at its result. -/
theorem hostMove_line {c : Command} (hc : op.command = some c) (ht : transact c s = .next t) :
    Rig.move .host ⟨⟨op :: rest, hw, .running⟩, s⟩ =
      .next ⟨Driver.observe ⟨op :: rest, hw, .running⟩ op rest t.result, t⟩ := by
  simp only [Rig.move, Rig.hostMove, hc, Rig.moveCore, takeTurn_host, ht]

/-- R95, R96: the return line serialises the words and drops them. -/
theorem hostMove_ret :
    Rig.move .host ⟨⟨.ret :: rest, hw, .running⟩, s⟩ = .next ⟨⟨rest, [], .returned (serializeWords hw)⟩, s⟩ := rfl

/-- Log 13: a driver that has ended does not move. -/
theorem hostMove_ended (hd : d.status ≠ .running) : Rig.move .host ⟨d, s⟩ = .next ⟨d, s⟩ := by
  obtain ⟨todo, hw, status⟩ := d
  cases status with
  | running => exact absurd rfl hd
  | failed | returned => rfl

/-- R48: the engine's move is its step. -/
theorem engineMove (ht : engineStep s = .next t) : Rig.move .engine ⟨d, s⟩ = .next ⟨d, t⟩ := by
  simp only [Rig.move, Rig.moveCore, takeTurn_engine, ht]

/-- R114, log 13: a reset of the core leaves the driver. -/
theorem resetMove : Rig.move .reset ⟨d, s⟩ = .next ⟨d, s.resetNow⟩ := rfl

end

/-! ### A message that is refused (R91, R99) -/

/-- R91: the host refuses a message exactly from 2^61 bytes on. -/
theorem messageTooLong_iff (m : List Byte) : messageTooLong m = true ↔ 2 ^ 61 ≤ m.length := decide_eq_true_iff

/-- R91, R95: a message that is too long fails at the start. -/
theorem start_tooLong {m : List Byte} (hm : 2 ^ 61 ≤ m.length) (canAllocate : Bool) :
    Driver.start m canAllocate = ⟨[], [], .failed .tooLong⟩ := if_pos ((messageTooLong_iff m).mpr hm)

/-- R99: without a buffer it fails at the start too. -/
theorem start_withoutBuffer {m : List Byte} (hm : m.length < 2 ^ 61) :
    Driver.start m false = ⟨[], [], .failed .allocation⟩ :=
  if_neg fun h => absurd ((messageTooLong_iff m).mp h) hm.not_ge

/-- R95: with one, the driver runs its lines. -/
theorem start_running {m : List Byte} (hm : m.length < 2 ^ 61) :
    Driver.start m true = ⟨driverOps (messageBlocks m), [], .running⟩ :=
  if_neg fun h => absurd ((messageTooLong_iff m).mp h) hm.not_ge

/-- R98: a message that is not refused has a digest. -/
theorem messageHash_eq {m : List Byte} (hm : m.length < 2 ^ 61) :
    messageHash m = some (serialize (hashBlocks (messageBlocks m))) :=
  if_neg fun h => absurd ((messageTooLong_iff m).mp h) hm.not_ge

/-- Settles O51: the driver has failed at the start, and a driver that has ended does not move. -/
theorem hostRefusesBeforeAnyTransaction : Obligations.HostRefusesBeforeAnyTransaction := by
  intro m canAllocate s
  refine ⟨fun hm => ?tooLong, fun hm => ?withoutBuffer⟩
  case tooLong =>
    rw [start_tooLong hm]
    exact ⟨if_pos ((messageTooLong_iff m).mpr hm), rfl, hostMove_ended DriverStatus.noConfusion⟩
  case withoutBuffer =>
    rw [start_withoutBuffer hm]
    exact ⟨rfl, hostMove_ended DriverStatus.noConfusion⟩

/-! ### What every move keeps -/

/-- What every move keeps, every list of moves keeps. -/
theorem Rig.run_keeps {P : Rig → Prop} (hP : ∀ a r r', P r → Rig.move a r = .next r' → P r') {moves : List Agent}
    {r r' : Rig} (hr : P r) (h : Rig.run moves r = .next r') : P r' := by
  induction moves generalizing r with
  | nil => injection h with h; exact h ▸ hr
  | cons a rest ih =>
    unfold Rig.run at h
    split at h
    · next r₁ ha => exact ih (hP a r r₁ hr ha) h
    · cases h
    · cases h

/-- What every move without a reset completes and keeps, every list of such moves completes and keeps. -/
theorem Rig.run_completes {P : Rig → Prop} (hP : ∀ a r, a ≠ .reset → P r → ∃ r', Rig.move a r = .next r' ∧ P r')
    {moves : List Agent} (hmoves : ∀ a ∈ moves, a ≠ .reset) {r : Rig} (hr : P r) :
    ∃ r', Rig.run moves r = .next r' ∧ P r' := by
  induction moves generalizing r with
  | nil => exact ⟨r, rfl, hr⟩
  | cons a rest ih =>
    obtain ⟨ha, hrest⟩ := List.forall_mem_cons.mp hmoves
    obtain ⟨r₁, h₁, hr₁⟩ := hP a r ha hr
    obtain ⟨r', h', hr'⟩ := ih hrest hr₁
    exact ⟨r', (Rig.run_cons_next h₁).trans h', hr'⟩

/-- C6: a driver that has ended holds no hash words. -/
def Driver.Dropped (d : Driver) : Prop := d.status ≠ .running → d.hw = []

/-- R91, R95, R99: a driver starts without words. -/
theorem start_dropped (m : List Byte) (canAllocate : Bool) : (Driver.start m canAllocate).Dropped := by
  intro _
  unfold Driver.start
  split
  · rfl
  · split <;> rfl

/-- C6, log 13: the lines that end a driver drop the words, and the others leave it running. -/
theorem observe_dropped {d : Driver} (hd : d.status = .running) (op : DriverOp) (rest : List DriverOp) (result : Word) :
    (d.observe op rest result).Dropped := by
  intro hended
  cases op with
  | asm op =>
    cases op with
    | issue | raw => exact absurd hd hended
    | waitIdle =>
      simp only [Driver.observe] at hended
      split at hended <;> exact absurd hd hended
  | checkErr | checkCount =>
    simp only [Driver.observe] at hended ⊢
    split at hended
    · exact absurd hd hended
    · next h => rw [if_neg h]; rfl
  | readHash => exact absurd hd hended
  | ret => rfl

/-- C6: every move keeps this. -/
theorem move_dropped {a : Agent} {r r' : Rig} (hr : r.driver.Dropped) (h : r.move a = .next r') : r'.driver.Dropped := by
  obtain ⟨-, s, -, rfl⟩ | ⟨-, rfl⟩ | ⟨-, -, rfl⟩ | ⟨-, hd, op, rest, -, ⟨c, s, -, -, rfl⟩ | ⟨-, rfl⟩⟩ := move_next h
  · exact hr
  · exact hr
  · exact hr
  · exact observe_dropped hd op rest _
  · exact observe_dropped hd op rest _

/-- Settles O58: no move leaves an ended driver with words, and the driver starts without any. -/
theorem endedDriverHoldsNoHashWords : Obligations.EndedDriverHoldsNoHashWords :=
  have hkeep : ∀ a (r r' : Rig), r.driver.Dropped → r.move a = .next r' → r'.driver.Dropped := fun _ _ _ => move_dropped
  ⟨fun _ _ _ => hostMove_ret, fun m canAllocate _ _ _ h => Rig.run_keeps hkeep (start_dropped m canAllocate) h,
    fun _ _ _ hq h => Rig.run_keeps hkeep hq h⟩

end Sys2Proof.Machine
end

section
/-! What the driver's lines after INIT lead to when the engine ends each block before the next line (45_host_framing.md R95, R96,
R98). -/

namespace Sys2Proof.Machine

open Sys2Proof

/-! ### The remaining lines -/

/-- A core between two blocks of a hash computation: idle, with the hash state `hash` and `count` blocks ended, and with no
rejection since INIT. -/
structure Ready (hash : Vector Word 8) (count : Word) (s : State) : Prop where
  phase : s.phase = .idle
  hvalid : s.hvalid = true
  err : s.err = 0
  h : s.h = hash
  bcnt : s.bcnt = count

/-- The lines after INIT, from an idle core and the hash words read so far, lead to the digest `d`: no line is rejected, no check
fails, and the words read are those of `d`. A COMPRESS stands with its WAITIDLE, after which the core holds the block function's
value (R86). -/
inductive Leads (d : List Byte) : List DriverOp → State → List Word → Prop
  | wrm {rest : List DriverOp} {s : State} {hw : List Word} (i : Fin 16) (word : Word)
      (hrest : Leads d rest ((s.writeM i word).respond 0) hw) :
      Leads d (.asm (.issue (.wrm (BitVec.ofNat 4 i.val) word)) :: rest) s hw
  | compress {rest : List DriverOp} {s : State} {hw : List Word} (hfull : s.mmask = 0xFFFF)
      (hrest : ∀ t, Ready (compress s.h s.m) (s.bcnt + 1) t → Leads d rest t hw) :
      Leads d (.asm (.issue .compress) :: .asm .waitIdle :: rest) s hw
  | waitIdle {rest : List DriverOp} {s : State} {hw : List Word} (hrest : Leads d rest (s.respond s.status) hw) :
      Leads d (.asm .waitIdle :: rest) s hw
  | checkErr {rest : List DriverOp} {s : State} {hw : List Word} (hrest : Leads d rest (s.respond s.status) hw) :
      Leads d (.checkErr :: rest) s hw
  | checkCount {rest : List DriverOp} {s : State} {hw : List Word} (hrest : Leads d rest (s.respond s.bcnt) hw) :
      Leads d (.checkCount s.bcnt :: rest) s hw
  | readHash {rest : List DriverOp} {s : State} {hw : List Word} (i : Fin 8)
      (hrest : Leads d rest (s.respond s.h[i.val]) (hw ++ [s.h[i.val]])) :
      Leads d (.readHash (BitVec.ofNat 4 i.val) :: rest) s hw
  | lastWord {s : State} {hw : List Word} (i : Fin 8) (hd : serializeWords (hw ++ [s.h[i.val]]) = d) :
      Leads d [.readHash (BitVec.ofNat 4 i.val), .checkErr, .ret] s hw

section
variable {d : List Byte} {hash : Vector Word 8} {count : Word} {s : State} {rest todo : List DriverOp} {hw : List Word}

/-- A core can be ready with any hash state and count. -/
theorem ready_exists (hash : Vector Word 8) (count : Word) : ∃ t, Ready hash count t :=
  ⟨{ State.reset with h := hash, hvalid := true, bcnt := count }, rfl, rfl, rfl, rfl, rfl⟩

/-- What is ready does not depend on the port's result. -/
theorem Ready.respond (hs : Ready hash count s) (word : Word) : Ready hash count (s.respond word) :=
  ⟨hs.phase, hs.hvalid, hs.err, hs.h, hs.bcnt⟩

/-- R77: WRM leaves a core between two blocks there. -/
theorem Ready.writeM (hs : Ready hash count s) (i : Fin 16) (word : Word) : Ready hash count (s.writeM i word) :=
  ⟨hs.phase, hs.hvalid, hs.err, hs.h, hs.bcnt⟩

/-- R63: so does any list of word writes. -/
theorem Ready.writeBlockWords (hs : Ready hash count s) (b : Vector Word 16) (order : List (Fin 16)) :
    Ready hash count (order.foldl (State.writeBlockWord b) s) := by
  induction order generalizing s with
  | nil => exact hs
  | cons i order ih => exact ih ((hs.writeM i _).respond 0)

/-- R76: INIT begins a hash computation. -/
theorem ready_beginHash (hp : s.phase = .idle) : Ready romIV 0 (s.beginHash.respond 0) := ⟨hp, rfl, rfl, rfl, rfl⟩

/-! ### The driver's program leads to the digest (R95, R98) -/

/-- R63: the word writes of a block, one after another. -/
theorem leads_wrblk (b : Vector Word 16) (order : List (Fin 16))
    (hrest : Leads d rest (order.foldl (State.writeBlockWord b) s) hw) :
    Leads d ((order.map fun i => DriverOp.asm (.issue (.wrm (BitVec.ofNat 4 i.val) b[i.val]))) ++ rest) s hw := by
  induction order generalizing s with
  | nil => exact hrest
  | cons i order ih => exact .wrm i b[i.val] (ih hrest)

/-- R63, R86: the lines of a block lead on from the block function's value. -/
theorem leads_block (hs : Ready hash count s) (b : Vector Word 16)
    (hrest : ∀ t, Ready (compress hash b) (count + 1) t → Leads d rest t hw) :
    Leads d ((blockOps b).map .asm ++ rest) s hw := by
  have hwritten := hs.writeBlockWords b (List.finRange 16)
  have hm := writeBlockWords_m_eq b List.mem_finRange s
  have hfull := writeBlockWords_mmask_eq b List.mem_finRange s
  simp only [blockOps, wrblk, List.map_append, List.map_map, List.append_assoc]
  refine leads_wrblk b _ (.compress hfull fun t ht => hrest t ?_)
  rwa [hm, hwritten.h, hwritten.bcnt] at ht

/-- R95, R98: the lines of the blocks lead on from the value of all of them. -/
theorem leads_blocks (blocks : List (Vector Word 16)) (hs : Ready hash count s)
    (hrest : ∀ t, Ready (blocks.foldl compress hash) (count + BitVec.ofNat 32 blocks.length) t → Leads d rest t hw) :
    Leads d (blocks.flatMap (fun b => (blockOps b).map .asm) ++ rest) s hw := by
  induction blocks generalizing hash count s with
  | nil => exact hrest s (by simpa using hs)
  | cons b blocks ih =>
    rw [List.flatMap_cons, List.append_assoc]
    refine leads_block hs b fun t ht => ih ht fun u hu => hrest u ?_
    have hcount : count + 1 + BitVec.ofNat 32 blocks.length = count + BitVec.ofNat 32 (b :: blocks).length := by
      rw [List.length_cons, BitVec.ofNat_add, BitVec.add_assoc, BitVec.add_comm 1]
      rfl
    rwa [hcount] at hu

/-- A vector of eight words is its words in order. -/
theorem toList_eq_words (hash : Vector Word 8) :
    hash.toList = [hash[0], hash[1], hash[2], hash[3], hash[4], hash[5], hash[6], hash[7]] := by
  apply List.ext_getElem
  · simp
  · intro i h _
    rw [Vector.length_toList] at h
    interval_cases i <;> simp

/-- R95, R96: the read-out leads to the digest of the hash state. -/
theorem leads_readout (s : State) :
    Leads (serialize s.h) (((List.finRange 8).map fun i => .readHash (BitVec.ofNat 4 i.val)) ++ [.checkErr, .ret]) s [] :=
  .readHash 0 <| .readHash 1 <| .readHash 2 <| .readHash 3 <| .readHash 4 <| .readHash 5 <| .readHash 6 <| .lastWord 7 <| by
    rw [serialize, toList_eq_words]
    simp only [State.respond_h, List.nil_append, List.cons_append]
    rfl

/-- R98: the lines after INIT lead to the digest of the message's blocks. -/
theorem leads_program (blocks : List (Vector Word 16)) (hs : Ready romIV 0 s) :
    Leads (serialize (hashBlocks blocks)) ((driverOps blocks).drop 2) s [] := by
  simp only [driverOps, List.append_assoc]
  refine leads_blocks blocks hs fun t ht => .checkErr ?_
  have hhash : hashBlocks blocks = t.h := ht.h.symm
  have hcount : BitVec.ofNat 32 blocks.length = t.bcnt := by rw [ht.bcnt]; exact (BitVec.zero_add _).symm
  rw [hhash, hcount]
  exact .checkCount (leads_readout ((t.respond t.status).respond t.bcnt))

end

end Sys2Proof.Machine
end

section
/-! The driver on its way to a digest (45_host_framing.md R95, R98): every move of host or engine, in any order, keeps it on
course. -/

namespace Sys2Proof.Machine

open Sys2Proof

/-! ### Transactions and engine steps -/

/-- R57: an encoded command is executed. -/
theorem transact_encode {i : Instr} (hi : i.wf = true) (s : State) : transact (encode i) s = exec i s :=
  transact_ok (decodeOfEncodeIsTheInstruction i hi) s

/-- R88: RDSTAT gives the status word. -/
theorem transact_rdstat (s : State) : transact (encode .rdstat) s = .next (s.respond s.status) := transact_encode rfl s

/-- R30: bits 11..8 of STATUS are ERR. -/
theorem status_err (s : State) : s.status.extractLsb' 8 4 = s.err := by
  obtain ⟨word, hword, -, -, -, -, herr, -⟩ := statusFieldsStandWhereTheSpecPutsThem s
  obtain rfl : s.status = word := by injection (exec_rdstat s).symm.trans hword with h; exact congrArg State.result h
  exact herr

/-- R30: bit 0 of STATUS is BUSY. -/
theorem status_busy (s : State) : s.status.getLsbD 0 = s.busy := status_getLsbD s 0

/-- R80 to R85: the engine's steps leave ERR. -/
theorem engineStep_err {s t : State} (h : engineStep s = .next t) : t.err = s.err := by
  obtain ⟨-, rfl⟩ | ⟨-, rfl⟩ | ⟨-, j, -, rfl⟩ | ⟨-, rfl⟩ := engineStep_next h
  · rfl
  · exact afterLoad_err s
  · exact afterRound_err s j
  · exact afterAccum_err s

/-- Log 5: the engine's turn while idle. -/
theorem engineStep_idle {s : State} (hp : s.phase = .idle) : engineStep s = .next s := by
  simp only [engineStep, hp]

/-- R79: the 66th engine step ends a block, so 65 are the most it has behind it. -/
theorem EngineAt.le {hash : Vector Word 8} {block : Vector Word 16} {s : State} {n : Nat} (h : EngineAt hash block s n) :
    n ≤ 65 := by
  cases h with
  | load | accum => omega
  | round j => omega

/-- R80 to R85: the engine takes a block in flight one step on or ends it. -/
theorem InFlight.steps_or_ends {hash : Vector Word 8} {block : Vector Word 16} {count : Word} {n : Nat} {s : State}
    (hs : InFlight hash block count n s) (he : s.err = 0) :
    ∃ t, engineStep s = .next t ∧
      (InFlight hash block count (n + 1) t ∧ t.err = 0 ∨ Ready (compress hash block) (count + 1) t) := by
  obtain hlt | hlast : n < 65 ∨ n = 65 := Nat.lt_or_eq_of_le hs.engine.le
  · obtain ⟨t, ht, hfl⟩ := hs.after_engineStep hlt
    exact ⟨t, ht, .inl ⟨hfl, (engineStep_err ht).trans he⟩⟩
  · obtain ⟨t, ht, hh, hb, hp, -, hv, -⟩ := hs.ends hlast
    exact ⟨t, ht, .inr ⟨hp, hv, (engineStep_err ht).trans he, hh, hb⟩⟩

/-! ### On course -/

/-- The rigs in which the driver is on its way to the digest `d` or has returned it: it waits for a core that may still be busy
from another use, begins, goes on with its lines from an idle core, waits for its own block, checks ERR, returns, has
returned. -/
inductive OnCourse (d : List Byte) : Rig → Prop
  | poll {todo : List DriverOp} {s : State} (hs : s.Inv) (hl : ∀ t, Ready romIV 0 t → Leads d todo t []) :
      OnCourse d ⟨⟨.asm .waitIdle :: .asm (.issue .init) :: todo, [], .running⟩, s⟩
  | begin {todo : List DriverOp} {s : State} (hp : s.phase = .idle) (hl : ∀ t, Ready romIV 0 t → Leads d todo t []) :
      OnCourse d ⟨⟨.asm (.issue .init) :: todo, [], .running⟩, s⟩
  | line {hash : Vector Word 8} {count : Word} {todo : List DriverOp} {s : State} {hw : List Word}
      (hs : Ready hash count s) (hl : Leads d todo s hw) : OnCourse d ⟨⟨todo, hw, .running⟩, s⟩
  | await {hash : Vector Word 8} {block : Vector Word 16} {count : Word} {n : Nat} {todo : List DriverOp} {s : State}
      {hw : List Word} (hs : InFlight hash block count n s) (he : s.err = 0)
      (hl : ∀ t, Ready (compress hash block) (count + 1) t → Leads d todo t hw) :
      OnCourse d ⟨⟨.asm .waitIdle :: todo, hw, .running⟩, s⟩
  | lastCheck {s : State} {hw : List Word} (hp : s.phase = .idle) (he : s.err = 0) (hd : serializeWords hw = d) :
      OnCourse d ⟨⟨[.checkErr, .ret], hw, .running⟩, s⟩
  | ret {s : State} {hw : List Word} (hp : s.phase = .idle) (hd : serializeWords hw = d) :
      OnCourse d ⟨⟨[.ret], hw, .running⟩, s⟩
  | returned {s : State} (hp : s.phase = .idle) : OnCourse d ⟨⟨[], [], .returned d⟩, s⟩

section
variable {d : List Byte} {hash : Vector Word 8} {count : Word} {s t : State} {todo : List DriverOp} {hw : List Word} {r : Rig}

/-- R95: a status without ERR passes the check. -/
theorem observe_checkErr (he : s.err = 0) (rest : List DriverOp) :
    Driver.observe ⟨.checkErr :: rest, hw, .running⟩ .checkErr rest s.status = ⟨rest, hw, .running⟩ :=
  if_pos ((status_err s).trans he)

/-- R63: a status without BUSY ends WAITIDLE. -/
theorem observe_waitIdle_idle (hp : s.phase = .idle) (rest : List DriverOp) :
    Driver.observe ⟨.asm .waitIdle :: rest, hw, .running⟩ (.asm .waitIdle) rest s.status = ⟨rest, hw, .running⟩ :=
  if_neg (by rw [status_busy, (busy_eq_false s).mpr hp]; exact Bool.false_ne_true)

/-- R63: a status with BUSY is polled again. -/
theorem observe_waitIdle_busy (hp : s.phase ≠ .idle) (rest : List DriverOp) :
    Driver.observe ⟨.asm .waitIdle :: rest, hw, .running⟩ (.asm .waitIdle) rest s.status =
      ⟨.asm .waitIdle :: rest, hw, .running⟩ :=
  if_pos ((status_busy s).trans ((busy_eq_true s).mpr hp))

/-- R95: from an idle core every line that leads to the digest keeps the driver on course. -/
theorem onCourse_host_line (hs : Ready hash count s) (hl : Leads d todo s hw) :
    ∃ r, Rig.move .host ⟨⟨todo, hw, .running⟩, s⟩ = .next r ∧ OnCourse d r := by
  cases hl with
  | wrm i word hrest =>
    have ht := (transact_encode rfl s).trans (exec_wrm_idle hs.phase (BitVec.ofNat 4 i.val) word)
    rw [blockIndex_ofNat] at ht
    exact ⟨_, hostMove_line rfl ht, .line ((hs.writeM i word).respond 0) hrest⟩
  | compress hfull hrest =>
    have ht := (transact_encode rfl s).trans (exec_compress_full hs.phase hs.hvalid hfull)
    exact ⟨_, hostMove_line rfl ht, .await (inFlight_beginBlock hs.hvalid) hs.err hrest⟩
  | waitIdle hrest =>
    refine ⟨_, hostMove_line rfl (transact_rdstat s), ?_⟩
    rw [State.respond_result, observe_waitIdle_idle hs.phase]
    exact .line (hs.respond _) hrest
  | checkErr hrest =>
    refine ⟨_, hostMove_line rfl (transact_rdstat s), ?_⟩
    rw [State.respond_result, observe_checkErr hs.err]
    exact .line (hs.respond _) hrest
  | checkCount hrest =>
    have ht := (transact_encode rfl s).trans (exec_rdcnt_idle hs.phase)
    refine ⟨_, hostMove_line rfl ht, ?_⟩
    simp only [Driver.observe, State.respond_result, if_pos]
    exact .line (hs.respond _) hrest
  | readHash i hrest =>
    have ht := (transact_encode (rdh_ofNat_wf i) s).trans (exec_rdh_idle (hashIndex_ofNat i) hs.phase hs.hvalid)
    exact ⟨_, hostMove_line rfl ht, .line (hs.respond _) hrest⟩
  | lastWord i hd =>
    have ht := (transact_encode (rdh_ofNat_wf i) s).trans (exec_rdh_idle (hashIndex_ofNat i) hs.phase hs.hvalid)
    exact ⟨_, hostMove_line rfl ht, .lastCheck hs.phase hs.err hd⟩

/-- R95: every move of the host keeps the driver on course. -/
theorem onCourse_host (hr : OnCourse d r) : ∃ r', r.move .host = .next r' ∧ OnCourse d r' := by
  cases hr with
  | poll hs hl =>
    next todo s =>
    refine ⟨_, hostMove_line rfl (transact_rdstat s), ?_⟩
    rw [State.respond_result]
    by_cases hp : s.phase = .idle
    · rw [observe_waitIdle_idle hp]
      exact .begin hp hl
    · rw [observe_waitIdle_busy hp]
      exact .poll ((inv_respond _).mpr hs) hl
  | begin hp hl =>
    have ht := (transact_encode rfl _).trans (exec_init_idle hp)
    exact ⟨_, hostMove_line rfl ht, .line (ready_beginHash hp) (hl _ (ready_beginHash hp))⟩
  | line hs hl => exact onCourse_host_line hs hl
  | await hs he hl =>
    next s hw =>
    refine ⟨_, hostMove_line rfl (transact_rdstat s), ?_⟩
    rw [State.respond_result, observe_waitIdle_busy hs.engine.busy]
    exact .await (hs.after_transact (transact_rdstat s)) he hl
  | lastCheck hp he hd =>
    refine ⟨_, hostMove_line rfl (transact_rdstat _), ?_⟩
    rw [State.respond_result, observe_checkErr he]
    exact .ret hp hd
  | ret hp hd => exact ⟨_, hostMove_ret, hd ▸ .returned hp⟩
  | returned hp => exact ⟨_, hostMove_ended DriverStatus.noConfusion, .returned hp⟩

/-- Log 5: with an idle core the engine's move changes nothing. -/
theorem engineMove_idle {driver : Driver} (hp : s.phase = .idle) : Rig.move .engine ⟨driver, s⟩ = .next ⟨driver, s⟩ :=
  engineMove (engineStep_idle hp)

/-- R79: every move of the engine keeps the driver on course. -/
theorem onCourse_engine (hr : OnCourse d r) : ∃ r', r.move .engine = .next r' ∧ OnCourse d r' := by
  cases hr with
  | poll hs hl =>
    obtain ⟨t, ht⟩ := takeTurn_answers_next hs engineTurn
    exact ⟨_, engineMove ht, .poll (takeTurn_keeps_inv hs ht) hl⟩
  | begin hp hl => exact ⟨_, engineMove_idle hp, .begin hp hl⟩
  | line hs hl => exact ⟨_, engineMove_idle hs.phase, .line hs hl⟩
  | await hs he hl =>
    obtain ⟨t, ht, ⟨hfl, het⟩ | hready⟩ := hs.steps_or_ends he
    · exact ⟨_, engineMove ht, .await hfl het hl⟩
    · exact ⟨_, engineMove ht, .line hready (.waitIdle (hl _ (hready.respond _)))⟩
  | lastCheck hp he hd => exact ⟨_, engineMove_idle hp, .lastCheck hp he hd⟩
  | ret hp hd => exact ⟨_, engineMove_idle hp, .ret hp hd⟩
  | returned hp => exact ⟨_, engineMove_idle hp, .returned hp⟩

/-- R95: at the start the driver is on course to the message's hash. -/
theorem onCourse_start {m : List Byte} (hm : m.length < 2 ^ 61) (hs : s.Inv) :
    OnCourse (serialize (hashBlocks (messageBlocks m))) ⟨Driver.start m true, s⟩ := by
  rw [start_running hm]
  exact .poll hs fun t ht => leads_program _ ht

end

/-- R95: every move without a reset keeps the driver on course. -/
theorem onCourse_move {d : List Byte} (a : Agent) (r : Rig) (ha : a ≠ .reset) (hr : OnCourse d r) :
    ∃ r', r.move a = .next r' ∧ OnCourse d r' := by
  cases a with
  | host => exact onCourse_host hr
  | engine => exact onCourse_engine hr
  | reset => exact absurd rfl ha

/-- A driver on course to `d` has not failed, and has returned nothing but `d`. -/
theorem OnCourse.status {d : List Byte} {r : Rig} (hr : OnCourse d r) :
    r.driver.status = .running ∨ r.driver.status = .returned d := by
  cases hr with
  | returned => exact .inr rfl
  | poll | begin | line | await | lastCheck | ret => exact .inl rfl

/-- Settles O52: the driver starts on course to the message's hash, and no move of host or engine takes it off. -/
theorem driverReturnsOnlyTheMessageHash : Obligations.DriverReturnsOnlyTheMessageHash := by
  intro m s moves hm hs hmoves
  obtain ⟨r, hrun, hr⟩ := Rig.run_completes onCourse_move hmoves (onCourse_start hm hs)
  exact ⟨r, hrun, hr.status.imp_right fun h => ⟨_, h, messageHash_eq hm⟩⟩

end Sys2Proof.Machine
end

section
/-! One reset under the driver (45_host_framing.md R95, 70_reset_and_hazards.md R114): it clears HVALID, so that what is left of the
hash computation is rejected, and the last check of ERR sees that. -/

namespace Sys2Proof.Machine

open Sys2Proof

/-- A line that issues a transaction other than INIT. -/
def DriverOp.IssuesOtherThanInit (op : DriverOp) : Prop := ∃ c, op.command = some c ∧ decode c ≠ .ok .init

/-- Lines that end with the read of a hash word and the last check, with no INIT and no return before. -/
inductive Doomed : List DriverOp → Prop
  | lastWord (i : Fin 8) : Doomed [.readHash (BitVec.ofNat 4 i.val), .checkErr, .ret]
  | cons {op : DriverOp} {rest : List DriverOp} (hop : op.IssuesOtherThanInit) (hrest : Doomed rest) : Doomed (op :: rest)

/-- The rigs after a reset in the midst of a hash computation: the core has no hash state and the driver is bound to fail. -/
inductive Spoiled : Rig → Prop
  | line {s : State} {todo : List DriverOp} {hw : List Word} (hp : s.phase = .idle) (hv : s.hvalid = false)
      (htodo : Doomed todo) : Spoiled ⟨⟨todo, hw, .running⟩, s⟩
  | lastCheck {s : State} {hw : List Word} (hp : s.phase = .idle) (he : s.err ≠ 0) :
      Spoiled ⟨⟨[.checkErr, .ret], hw, .running⟩, s⟩
  | failed {s : State} {todo : List DriverOp} {hw : List Word} (hp : s.phase = .idle) (why : DriverFailure) :
      Spoiled ⟨⟨todo, hw, .failed why⟩, s⟩

section
variable {d : List Byte} {s t : State} {op : DriverOp} {todo rest : List DriverOp} {hw : List Word} {r : Rig}

/-- R57: a line with an encoded command other than INIT. -/
theorem issuesOtherThanInit_of_encode (i : Instr) (hi : i.wf = true) (hinit : i ≠ .init)
    (hop : op.command = some (encode i)) : op.IssuesOtherThanInit :=
  ⟨_, hop, by rw [decodeOfEncodeIsTheInstruction i hi]; exact fun h => hinit (Except.ok.inj h)⟩

/-- R95: lines that lead to a digest read a hash word before their last check. -/
theorem Leads.doomed (hl : Leads d todo s hw) : Doomed todo := by
  induction hl with
  | wrm i word _ ih => exact .cons (issuesOtherThanInit_of_encode (.wrm _ word) rfl Instr.noConfusion rfl) ih
  | compress _ _ ih =>
    obtain ⟨t, ht⟩ := ready_exists _ _
    exact .cons (issuesOtherThanInit_of_encode .compress rfl Instr.noConfusion rfl)
      (.cons (issuesOtherThanInit_of_encode .rdstat rfl Instr.noConfusion rfl) (ih t ht))
  | waitIdle _ ih | checkErr _ ih => exact .cons (issuesOtherThanInit_of_encode .rdstat rfl Instr.noConfusion rfl) ih
  | checkCount _ ih => exact .cons (issuesOtherThanInit_of_encode .rdcnt rfl Instr.noConfusion rfl) ih
  | readHash i _ ih => exact .cons (issuesOtherThanInit_of_encode (.rdh _) (rdh_ofNat_wf i) Instr.noConfusion rfl) ih
  | lastWord i => exact .lastWord i

/-- R76, R78: without a hash state no transaction but INIT gives one or makes the core busy. -/
theorem transact_keeps_hvalid_clear {c : Command} (hp : s.phase = .idle) (hv : s.hvalid = false) (hc : decode c ≠ .ok .init)
    (h : transact c s = .next t) : t.phase = .idle ∧ t.hvalid = false := by
  cases takeTurn_effect (x := hostTurn c) h with
  | rejected | readout | wrm => exact ⟨hp, hv⟩
  | init _ he hinit =>
    injection he with he
    exact absurd (he ▸ hinit) hc
  | compress _ _ _ _ hvalid => simp [hv] at hvalid
  | reset hr => cases hr
  | stutter _ he | load _ he | round _ he | accum _ he => cases he

/-- R95: after a line with a transaction the driver goes on, polls again or has failed. -/
theorem observe_cases {c : Command} (hop : op.command = some c) (result : Word) :
    (∃ hw' todo', (todo' = rest ∨ todo' = op :: rest) ∧
      Driver.observe ⟨op :: rest, hw, .running⟩ op rest result = ⟨todo', hw', .running⟩) ∨
    ∃ why, Driver.observe ⟨op :: rest, hw, .running⟩ op rest result = ⟨op :: rest, [], .failed why⟩ := by
  cases op with
  | asm op =>
    cases op with
    | issue | raw => exact .inl ⟨_, _, .inl rfl, rfl⟩
    | waitIdle =>
      simp only [Driver.observe]
      split
      · exact .inl ⟨_, _, .inr rfl, rfl⟩
      · exact .inl ⟨_, _, .inl rfl, rfl⟩
  | checkErr | checkCount =>
    simp only [Driver.observe]
    split
    · exact .inl ⟨_, _, .inl rfl, rfl⟩
    · exact .inr ⟨_, rfl⟩
  | readHash => exact .inl ⟨_, _, .inl rfl, rfl⟩
  | ret => cases hop

/-- R95: a status with ERR fails the check. -/
theorem observe_checkErr_rejected (he : s.err ≠ 0) :
    Driver.observe ⟨.checkErr :: rest, hw, .running⟩ .checkErr rest s.status =
      ⟨.checkErr :: rest, [], .failed .rejected⟩ :=
  if_neg (by rwa [status_err])

/-- R95, R101: without a hash state the driver stays bound to fail. -/
theorem spoiled_host_line (hp : s.phase = .idle) (hv : s.hvalid = false) (htodo : Doomed todo) :
    ∃ r, Rig.move .host ⟨⟨todo, hw, .running⟩, s⟩ = .next r ∧ Spoiled r := by
  cases htodo with
  | lastWord i =>
    have ht := (transact_encode (rdh_ofNat_wf i) s).trans (exec_noInit (rdh_ofNat_wf i) hp hv (.inr ⟨_, rfl⟩))
    refine ⟨_, hostMove_line rfl ht, .lastCheck hp fun he => ?_⟩
    simp at he
  | cons hop hrest =>
    next op rest =>
    obtain ⟨c, hc, hinit⟩ := id hop
    obtain ⟨t, ht⟩ := transact_answers_next c s
    obtain ⟨hpt, hvt⟩ := transact_keeps_hvalid_clear hp hv hinit ht
    refine ⟨_, hostMove_line hc ht, ?_⟩
    obtain ⟨hw', todo', rfl | rfl, hobs⟩ | ⟨why, hobs⟩ := observe_cases (rest := rest) (hw := hw) hc t.result
    · exact hobs ▸ .line hpt hvt hrest
    · exact hobs ▸ .line hpt hvt (.cons hop hrest)
    · exact hobs ▸ .failed hpt why

/-- R101: a core without a hash state accepts no COMPRESS, so it stays idle. -/
theorem Spoiled.phase (hr : Spoiled r) : r.core.phase = .idle := by
  cases hr with
  | line hp | lastCheck hp | failed hp => exact hp

/-- R95: every move without a further reset leaves the driver bound to fail. -/
theorem spoiled_move (a : Agent) (r : Rig) (ha : a ≠ .reset) (hr : Spoiled r) : ∃ r', r.move a = .next r' ∧ Spoiled r' := by
  cases a with
  | engine => exact ⟨r, engineMove_idle hr.phase, hr⟩
  | reset => exact absurd rfl ha
  | host =>
    cases hr with
    | line hp hv htodo => exact spoiled_host_line hp hv htodo
    | lastCheck hp he =>
      refine ⟨_, hostMove_line rfl (transact_rdstat _), ?_⟩
      rw [State.respond_result, observe_checkErr_rejected he]
      refine .failed ?_ .rejected
      exact hp
    | failed hp why => exact ⟨_, hostMove_ended DriverStatus.noConfusion, .failed hp why⟩

/-- R114: a reset before INIT or after the last word read leaves the driver on course, and any other spoils the computation. -/
theorem onCourse_reset (hr : OnCourse d r) : ∃ r', r.move .reset = .next r' ∧ (OnCourse d r' ∨ Spoiled r') := by
  refine ⟨_, resetMove, ?_⟩
  cases hr with
  | poll hs hl => exact .inl (.poll ((inv_withInputs _).mpr inv_reset) hl)
  | begin hp hl => exact .inl (.begin rfl hl)
  | line hs hl => exact .inr (.line rfl rfl hl.doomed)
  | await hs he hl =>
    obtain ⟨t, ht⟩ := ready_exists _ _
    exact .inr (.line rfl rfl (.cons (issuesOtherThanInit_of_encode .rdstat rfl Instr.noConfusion rfl) (hl t ht).doomed))
  | lastCheck hp he hd => exact .inl (.lastCheck rfl rfl hd)
  | ret hp hd => exact .inl (.ret rfl hd)
  | returned hp => exact .inl (.returned rfl)

/-- R95: on course or spoiled, every move without a further reset completes and keeps to one of the two. -/
theorem onCourse_or_spoiled_move (a : Agent) (r : Rig) (ha : a ≠ .reset) (hr : OnCourse d r ∨ Spoiled r) :
    ∃ r', r.move a = .next r' ∧ (OnCourse d r' ∨ Spoiled r') := by
  obtain hr | hr := hr
  · obtain ⟨r', h, hr'⟩ := onCourse_move a r ha hr
    exact ⟨r', h, .inl hr'⟩
  · obtain ⟨r', h, hr'⟩ := spoiled_move a r ha hr
    exact ⟨r', h, .inr hr'⟩

/-- On course or spoiled, the driver returns nothing but the digest. -/
theorem returned_eq_of_onCourse_or_spoiled {d' : List Byte} (hr : OnCourse d r ∨ Spoiled r)
    (h : r.driver.status = .returned d') : d' = d := by
  obtain hr | hr := hr
  · obtain hrun | hret := hr.status
    · cases hrun.symm.trans h
    · injection hret.symm.trans h with h
      exact h.symm
  · cases hr with
    | line | lastCheck | failed => cases h

/-- A list of moves with one reset at most is a list without, or two such lists with a reset between. -/
theorem moves_cases {moves : List Agent} (h : moves.countP (fun a => decide (a = .reset)) ≤ 1) :
    (∀ a ∈ moves, a ≠ .reset) ∨
    ∃ before after, moves = before ++ .reset :: after ∧ (∀ a ∈ before, a ≠ .reset) ∧ ∀ a ∈ after, a ≠ .reset := by
  by_cases hmem : Agent.reset ∈ moves
  · obtain ⟨before, after, rfl, hbefore⟩ := List.eq_append_cons_of_mem hmem
    have hafter : after.countP (fun a => decide (a = .reset)) = 0 := by
      rw [List.countP_append, List.countP_cons_of_pos (by decide)] at h
      omega
    exact .inr ⟨before, after, rfl, fun a ha => ne_of_mem_of_not_mem ha hbefore,
      fun a ha => by simpa using List.countP_eq_zero.mp hafter a ha⟩
  · exact .inl fun a ha => ne_of_mem_of_not_mem ha hmem

end

/-- Settles O55: without a reset the driver stays on course; a reset leaves it on course or bound to fail, and the moves after
it do not change that. -/
theorem driverUnderOneReset : Obligations.DriverUnderOneReset := by
  intro m s moves hm hs hcount
  have hstart := onCourse_start hm hs
  obtain ⟨r, hrun, hr⟩ : ∃ r, Rig.run moves ⟨Driver.start m true, s⟩ = .next r ∧
      (OnCourse (serialize (hashBlocks (messageBlocks m))) r ∨ Spoiled r) := by
    obtain hmoves | ⟨before, after, rfl, hbefore, hafter⟩ := moves_cases hcount
    · exact Rig.run_completes onCourse_or_spoiled_move hmoves (.inl hstart)
    · obtain ⟨r₁, h₁, hr₁⟩ := Rig.run_completes onCourse_move hbefore hstart
      obtain ⟨r₂, h₂, hr₂⟩ := onCourse_reset hr₁
      obtain ⟨r, h, hr⟩ := Rig.run_completes onCourse_or_spoiled_move hafter hr₂
      exact ⟨r, by rw [Rig.run_append_next h₁, Rig.run_cons_next h₂, h], hr⟩
  exact ⟨r, hrun, fun d hd => by rw [returned_eq_of_onCourse_or_spoiled hr hd, messageHash_eq hm]⟩

end Sys2Proof.Machine
end

section
/-! The order of a command's checks, and the transactions of the busy window (60_exceptions.md R100, R101;
70_reset_and_hazards.md R116). -/

namespace Sys2Proof.Machine

open Sys2Proof

/-- R76, R101: a well-formed command that fails none of its checks completes; INIT clears ERR, every other one leaves it. -/
theorem exec_accepted {i : Instr} {s : State} (hw : i.wf = true) (hbusy : s.phase = .idle ∨ i = .nop ∨ i = .rdstat)
    (hinit : s.hvalid = true ∨ (i ≠ .compress ∧ ∀ idx, i ≠ .rdh idx)) (hfull : s.mmask = 0xFFFF ∨ i ≠ .compress) :
    ∃ t, exec i s = .next t ∧ t.err = if i = .init then 0 else s.err := by
  have idle (hn : i ≠ .nop) (hr : i ≠ .rdstat) : s.phase = .idle := hbusy.resolve_right (not_or_intro hn hr)
  cases i with
  | nop => exact ⟨_, exec_nop s, rfl⟩
  | rdstat => exact ⟨_, exec_rdstat s, rfl⟩
  | init => exact ⟨_, exec_init_idle (idle nofun nofun), rfl⟩
  | wrm idx word => exact ⟨_, exec_wrm_idle (idle nofun nofun) idx word, rfl⟩
  | rdcnt => exact ⟨_, exec_rdcnt_idle (idle nofun nofun), rfl⟩
  | rdh idx =>
    have hv : s.hvalid = true := by simpa using hinit
    exact ⟨_, exec_rdh_idle (hashIndex_eq_some (of_decide_eq_true hw)) (idle nofun nofun) hv, rfl⟩
  | compress =>
    have hv : s.hvalid = true := by simpa using hinit
    have hm : s.mmask = 0xFFFF := by simpa using hfull
    exact ⟨_, exec_compress_full (idle nofun nofun) hv hm, rfl⟩

/-- Settles O16: the decoder's check comes before the command, and each later check decides once those before it pass. -/
theorem checksAreMadeInTheSpecsOrder : Obligations.ChecksAreMadeInTheSpecsOrder := by
  refine ⟨fun c s e hc => ?illegal, fun c s i hc => ⟨decode_wf hc, transact_ok hc s⟩, fun i s hw =>
    ⟨fun hp hn hr => ?busy, fun hp hv hi => ?noInit, fun hp hv hm hi => ?incomplete, fun hbusy hinit hfull => ?accepted⟩⟩
  case illegal => exact transact_error hc s
  case busy => exact exec_busy hw hp hn hr
  case noInit => exact exec_noInit hw hp hv hi
  case incomplete => exact hi ▸ exec_compress_incomplete hp hv hm
  case accepted => exact exec_accepted hw hbusy hinit hfull

/-- R100, R101: while busy every word but NOP and RDSTAT is rejected, with ErrIllegal or ErrBusy. -/
theorem transact_busy_rejected {c : Command} {s : State} (hp : s.phase ≠ .idle) (hn : decode c ≠ .ok .nop)
    (hr : decode c ≠ .ok .rdstat) :
    transact c s = .next (s.reject .illegal) ∨ transact c s = .next (s.reject .busy) := by
  cases hc : decode c with
  | error e => exact .inl (transact_error hc s)
  | ok i =>
    have hexec : exec i s = .next (s.reject .busy) :=
      exec_busy (decode_wf hc) hp (fun hi => hn (hi ▸ hc)) (fun hi => hr (hi ▸ hc))
    exact .inr ((transact_ok hc s).trans hexec)

/-- Settles O23: of a transaction's effects only a rejection and a readout are possible while busy, and all words but NOP and
RDSTAT are rejected. -/
theorem busyWindowTransactionsDisturbNothing : Obligations.BusyWindowTransactionsDisturbNothing := by
  intro c s hp
  obtain ⟨t, ht⟩ := transact_answers_next c s
  refine ⟨t, ht, ?frame, fun hn hr => ?rejected⟩
  case frame =>
    obtain ⟨err, result, rfl⟩ := transact_busy hp ht
    rfl
  case rejected =>
    obtain h | h := transact_busy_rejected hp hn hr
    · obtain rfl : t = s.reject .illegal := by injection ht.symm.trans h
      exact ⟨rfl, .inl rfl⟩
    · obtain rfl : t = s.reject .busy := by injection ht.symm.trans h
      exact ⟨rfl, .inr rfl⟩

end Sys2Proof.Machine
end

section
/-! How far a busy engine is from IDLE (42_compress_engine.md R79): its own steps take it one nearer and no transaction takes it
back, so the machine left to itself becomes idle, and so does every run that is fair to the engine (70_reset_and_hazards.md R120). -/

namespace Sys2Proof.Machine

open Sys2Proof

/-! ### The steps to IDLE -/

/-- R79: the engine steps that still lead to IDLE: LOAD, 64 rounds and ACCUM, less those already taken. -/
def State.stepsLeft (s : State) : Nat :=
  match s.phase with
  | .idle => 0
  | .load => 66
  | .round => 65 - s.j.toNat
  | .accum => 1

section
variable {s t : State}

theorem stepsLeft_idle (hp : s.phase = .idle) : s.stepsLeft = 0 := by simp only [State.stepsLeft, hp]

theorem stepsLeft_load (hp : s.phase = .load) : s.stepsLeft = 66 := by simp only [State.stepsLeft, hp]

theorem stepsLeft_round (hp : s.phase = .round) : s.stepsLeft = 65 - s.j.toNat := by simp only [State.stepsLeft, hp]

theorem stepsLeft_accum (hp : s.phase = .accum) : s.stepsLeft = 1 := by simp only [State.stepsLeft, hp]

/-- R79: 66 steps are the most. -/
theorem stepsLeft_le (s : State) : s.stepsLeft ≤ 66 := by
  cases hp : s.phase with
  | idle => rw [stepsLeft_idle hp]; omega
  | load => rw [stepsLeft_load hp]
  | round => rw [stepsLeft_round hp]; omega
  | accum => rw [stepsLeft_accum hp]; omega

/-- R35 (c): under the invariant a busy engine has a step left. -/
theorem stepsLeft_pos (hs : s.Inv) (hp : s.phase ≠ .idle) : 0 < s.stepsLeft := by
  obtain ⟨-, -, -, hround, -⟩ := hs
  cases hphase : s.phase with
  | idle => exact absurd hphase hp
  | load => rw [stepsLeft_load hphase]; omega
  | round =>
    obtain ⟨-, -, hj, -⟩ := hround hphase
    rw [stepsLeft_round hphase]
    omega
  | accum => rw [stepsLeft_accum hphase]; omega

/-- R79: each engine step is one of them; while idle there is none and none is taken. -/
theorem engineStep_stepsLeft (h : engineStep s = .next t) : t.stepsLeft = s.stepsLeft - 1 := by
  obtain ⟨hp, rfl⟩ | ⟨hp, rfl⟩ | ⟨hp, j, hj, rfl⟩ | ⟨hp, rfl⟩ := engineStep_next h
  · rw [stepsLeft_idle hp]
  · rw [stepsLeft_load hp, stepsLeft_round (afterLoad_phase s), afterLoad_j]
    rfl
  · have hphase := afterRound_phase hj
    have hnext := afterRound_j_toNat hj
    rw [stepsLeft_round hp]
    by_cases h63 : j.val = 63
    · rw [stepsLeft_accum (hphase.trans (if_pos h63))]
      omega
    · rw [stepsLeft_round (hphase.trans ((if_neg h63).trans hp))]
      omega
  · rw [stepsLeft_accum hp, stepsLeft_idle (afterAccum_phase s)]

/-- R79: so a busy engine's step takes it nearer to IDLE. -/
theorem engineStep_stepsLeft_lt (hs : s.Inv) (hp : s.phase ≠ .idle) (h : engineStep s = .next t) :
    t.stepsLeft < s.stepsLeft := by
  rw [engineStep_stepsLeft h]
  exact Nat.sub_lt (stepsLeft_pos hs hp) Nat.one_pos

/-- R101: while busy a transaction leaves the engine where it is. -/
theorem transact_stepsLeft {c : Command} (hp : s.phase ≠ .idle) (h : transact c s = .next t) : t.stepsLeft = s.stepsLeft := by
  obtain ⟨_, _, rfl⟩ := transact_busy hp h
  rfl

/-! ### The machine left to itself -/

/-- Log 1: the engine does not touch the schedule. -/
theorem engineStep_inputs (h : engineStep s = .next t) : t.inputs = s.inputs := by
  obtain ⟨-, rfl⟩ | ⟨-, rfl⟩ | ⟨-, j, -, rfl⟩ | ⟨-, rfl⟩ := engineStep_next h
  · rfl
  · simp [afterLoad]
  · simp [afterRound]
  · rfl

/-- R48: a run of the machine is its steps one after another. -/
theorem coreRun_succ_next (k : Nat) (h : step s = .next t) :
    Host.Core.run Sys2Proof.core (k + 1) s = Host.Core.run Sys2Proof.core k t := by
  have hstep : Sys2Proof.core.step s = .next t := h
  simp only [Host.Core.run, hstep]

/-- R79, log 1: without a schedule the machine is idle after just the steps that the engine has left. -/
theorem coreRun_stepsLeft {n : Nat} (hn : s.stepsLeft = n) (hs : s.Inv) (hinputs : s.inputs = []) :
    ∃ t : State, Host.Core.run Sys2Proof.core n s = .next t ∧ t.phase = .idle ∧ t.Inv := by
  induction n generalizing s with
  | zero =>
    have hidle : s.phase = .idle := by
      by_contra hp
      exact (stepsLeft_pos hs hp).ne' hn
    exact ⟨s, rfl, hidle, hs⟩
  | succ n ih =>
    obtain ⟨s₁, h₁⟩ := takeTurn_answers_next hs engineTurn
    have hleft : s₁.stepsLeft = n := by rw [engineStep_stepsLeft h₁, hn, Nat.add_sub_cancel]
    obtain ⟨t, ht, hend⟩ := ih hleft (takeTurn_keeps_inv hs h₁) ((engineStep_inputs h₁).trans hinputs)
    exact ⟨t, (coreRun_succ_next n ((step_nil hinputs).trans h₁)).trans ht, hend⟩

/-- Settles O30, by induction on the steps that the engine has left, at most 66. -/
theorem busyEngineReachesIdle : Obligations.BusyEngineReachesIdle := fun s hs hinputs =>
  ⟨s.stepsLeft, stepsLeft_le s, coreRun_stepsLeft rfl hs hinputs⟩

/-! ### Fair runs -/

/-- R79, R101, R114: while busy a turn takes the engine nearer to IDLE, or leaves it as near and is not the engine's. -/
theorem takeTurn_busy_progress {x : Turn} (hs : s.Inv) (hp : s.phase ≠ .idle) (h : takeTurn x s = .next t) :
    t.stepsLeft < s.stepsLeft ∨ (t.stepsLeft = s.stepsLeft ∧ x ≠ engineTurn) := by
  obtain ⟨-, rfl⟩ | ⟨-, c, he, h⟩ | ⟨-, -, h⟩ := takeTurn_next h
  · exact .inl (stepsLeft_pos hs hp)
  · refine .inr ⟨transact_stepsLeft hp h, ?_⟩
    rintro rfl
    cases he
  · exact .inl (engineStep_stepsLeft_lt hs hp h)

end

/-- Along a sequence each of whose steps lowers a measure or keeps it and has a property, all steps from some point on have the
property: from where the measure is least. -/
theorem eventually_of_descends_or {μ : Nat → Nat} {Q : Nat → Prop}
    (h : ∀ n, μ (n + 1) < μ n ∨ (μ (n + 1) = μ n ∧ Q n)) : ∃ N, ∀ k, N ≤ k → Q k := by
  have hanti : Antitone μ := antitone_nat_of_succ_le fun n => (h n).elim Nat.le_of_lt fun hk => hk.1.le
  refine ⟨Function.argmin μ, fun k hk => ?_⟩
  have hle := hanti hk
  have hleast := Function.argmin_le μ (k + 1)
  obtain hlt | ⟨-, hq⟩ := h k
  · omega
  · exact hq

/-- R48: the run along an infinite sequence of turns takes its next turn. -/
theorem coreAlong_next {turns : Nat → Turn} {s t : State} {n : Nat} (h : coreAlong turns s n = .next t) :
    coreAlong turns s (n + 1) = takeTurn (turns n) t := by
  rw [coreAlong_succ h]
  simp only [runTurns]
  cases takeTurn (turns n) t <;> rfl

/-- R35, R38: under the invariant an infinite sequence of turns runs through states of the invariant, without stopping. -/
theorem coreAlong_states (turns : Nat → Turn) {s : State} (hs : s.Inv) :
    ∃ x : Nat → State, ∀ n, coreAlong turns s n = .next (x n) ∧ (x n).Inv ∧ takeTurn (turns n) (x n) = .next (x (n + 1)) := by
  have completes (n : Nat) : ∃ t, coreAlong turns s n = .next t ∧ t.Inv := by
    induction n with
    | zero => exact ⟨s, rfl, hs⟩
    | succ n ih =>
      obtain ⟨t, ht, hinv⟩ := ih
      obtain ⟨u, hu⟩ := takeTurn_answers_next hinv (turns n)
      exact ⟨u, (coreAlong_next ht).trans hu, takeTurn_keeps_inv hinv hu⟩
  choose x hx hinv using completes
  exact ⟨x, fun n => ⟨hx n, hinv n, (coreAlong_next (hx n)).symm.trans (hx (n + 1))⟩⟩

/-- Settles O54: in a run that were never idle, no turn from some point on would be the engine's. -/
theorem fairEngineReachesIdle : Obligations.FairEngineReachesIdle := by
  intro turns s hs hfair
  obtain ⟨x, hx⟩ := coreAlong_states turns hs
  suffices hidle : ∃ n, (x n).phase = .idle by
    obtain ⟨n, hp⟩ := hidle
    obtain ⟨hn, hinv, -⟩ := hx n
    exact ⟨n, x n, hn, hp, hinv⟩
  by_contra hbusy
  rw [not_exists] at hbusy
  have progress (n : Nat) : (x (n + 1)).stepsLeft < (x n).stepsLeft ∨
      ((x (n + 1)).stepsLeft = (x n).stepsLeft ∧ turns n ≠ engineTurn) := by
    obtain ⟨-, hinv, hturn⟩ := hx n
    exact takeTurn_busy_progress hinv (hbusy n) hturn
  obtain ⟨N, hN⟩ := eventually_of_descends_or (μ := fun n => (x n).stepsLeft) progress
  obtain ⟨k, hk, hengine⟩ := hfair N fun k _ => ⟨x k, (hx k).1, hbusy k⟩
  exact hN k hk hengine

end Sys2Proof.Machine
end

section
/-! The driver ends (45_host_framing.md R95, 70_reset_and_hazards.md R120): every move takes it nearer to its end, unless it polls a
busy engine or moves an idle one, and in a run that is fair to the engine and in which the host goes on this cannot last. -/

namespace Sys2Proof.Machine

open Sys2Proof

/-! ### The lines of the driver -/

/-- R95: as long as the driver runs, its last line is the return. -/
def Driver.EndsInReturn (d : Driver) : Prop := d.status = .running → d.todo.getLast? = some .ret

/-- R95: the lines a running driver still has to run; one that has ended has none. -/
def Driver.linesLeft (d : Driver) : Nat := if d.status = .running then d.todo.length else 0

theorem linesLeft_running {d : Driver} (hd : d.status = .running) : d.linesLeft = d.todo.length := if_pos hd

theorem linesLeft_ended {d : Driver} (hd : d.status ≠ .running) : d.linesLeft = 0 := if_neg hd

/-- R91, R95: the driver starts with its return as last line. -/
theorem start_endsInReturn {m : List Byte} (hm : m.length < 2 ^ 61) : (Driver.start m true).EndsInReturn := by
  intro _
  rw [start_running hm, driverOps, List.getLast?_append]
  rfl

section
variable {d : Driver} {op : DriverOp} {rest : List DriverOp}

/-- R63, R95: a line of a running driver is done with, or ends the driver, or is a WAITIDLE that sees BUSY and stays. -/
theorem observe_advances_or_polls (hd : d.status = .running) (op : DriverOp) (rest : List DriverOp) (result : Word) :
    ((d.observe op rest result).status = .running ∧ (d.observe op rest result).todo = rest ∧ op ≠ .ret) ∨
    (d.observe op rest result).status ≠ .running ∨
    (op = .asm .waitIdle ∧ result.getLsbD 0 = true ∧ d.observe op rest result = d) := by
  cases op with
  | asm op =>
    cases op with
    | issue | raw => exact .inl ⟨hd, rfl, DriverOp.noConfusion⟩
    | waitIdle =>
      by_cases hbusy : result.getLsbD 0 = true
      · exact .inr (.inr ⟨rfl, hbusy, if_pos hbusy⟩)
      · have hdone : d.observe (.asm .waitIdle) rest result = { d with todo := rest } := if_neg hbusy
        rw [hdone]
        exact .inl ⟨hd, rfl, DriverOp.noConfusion⟩
  | checkErr | checkCount =>
    simp only [Driver.observe]
    split
    · exact .inl ⟨hd, rfl, DriverOp.noConfusion⟩
    · exact .inr (.inl DriverStatus.noConfusion)
  | readHash => exact .inl ⟨hd, rfl, DriverOp.noConfusion⟩
  | ret => exact .inr (.inl DriverStatus.noConfusion)

/-- R95: no line takes the return off the end but the return itself. -/
theorem observe_endsInReturn (hd : d.status = .running) (htodo : d.todo = op :: rest) (hret : d.EndsInReturn) (result : Word) :
    (d.observe op rest result).EndsInReturn := by
  intro hrun
  have hlast := hret hd
  obtain ⟨-, hrest, hop⟩ | hended | ⟨-, -, hsame⟩ := observe_advances_or_polls hd op rest result
  · rw [htodo] at hlast
    rw [hrest]
    cases rest with
    | nil => exact absurd (Option.some.inj hlast) hop
    | cons op' rest => exact hlast
  · exact absurd hrun hended
  · rw [hsame]
    exact hlast

/-- R63, R95: a line leaves the driver with fewer lines, or is a WAITIDLE that sees BUSY. -/
theorem observe_linesLeft (hd : d.status = .running) (htodo : d.todo = op :: rest) (result : Word) :
    (d.observe op rest result).linesLeft < d.linesLeft ∨
    (op = .asm .waitIdle ∧ result.getLsbD 0 = true ∧ d.observe op rest result = d) := by
  rw [linesLeft_running hd, htodo, List.length_cons]
  obtain ⟨hrun, hrest, -⟩ | hended | hpolls := observe_advances_or_polls hd op rest result
  · rw [linesLeft_running hrun, hrest]
    exact .inl (Nat.lt_succ_self _)
  · rw [linesLeft_ended hended]
    exact .inl (Nat.succ_pos _)
  · exact .inr hpolls

end

/-- R24, R63: a WAITIDLE sees BUSY where the engine is busy, and only reads. -/
theorem waitIdle_sees_busy {c : Command} {s t : State} (hc : (DriverOp.asm .waitIdle).command = some c)
    (ht : transact c s = .next t) (hbit : t.result.getLsbD 0 = true) : t = s.respond s.status ∧ s.phase ≠ .idle := by
  obtain rfl : encode .rdstat = c := Option.some.inj hc
  obtain rfl : s.respond s.status = t := by injection (transact_rdstat s).symm.trans ht
  exact ⟨rfl, (busy_eq_true s).mp ((status_busy s).symm.trans hbit)⟩

/-! ### The moves of a rig -/

/-- The rigs in which every move completes and the driver has a line as long as it runs. -/
structure Rig.Sound (r : Rig) : Prop where
  core : r.core.Inv
  driver : r.driver.EndsInReturn

/-- How far a rig is from its driver's end: the lines of the driver and, within a line, the engine steps before IDLE. A line
that starts the engine gives it at most 66 of these. -/
def Rig.distance (r : Rig) : Nat := 67 * r.driver.linesLeft + r.core.stepsLeft

section
variable {a : Agent} {r r' : Rig}

/-- Fewer lines are nearer to the end, wherever the engine stands. -/
theorem distance_lt_of_linesLeft_lt (h : r'.driver.linesLeft < r.driver.linesLeft) : r'.distance < r.distance := by
  have hle := stepsLeft_le r'.core
  unfold Rig.distance
  omega

/-- With the same driver fewer engine steps are nearer to the end. -/
theorem distance_lt_of_stepsLeft_lt (hd : r'.driver = r.driver) (h : r'.core.stepsLeft < r.core.stepsLeft) :
    r'.distance < r.distance := by
  unfold Rig.distance
  rw [hd]
  omega

/-- R35, R38: from a core of the invariant every move completes. -/
theorem move_answers_next (hr : r.core.Inv) (a : Agent) : ∃ r', r.move a = .next r' := by
  have moveCore (x : Turn) (k : State → Rig) : ∃ r', r.moveCore x k = .next r' := by
    obtain ⟨s, hs⟩ := takeTurn_answers_next hr x
    exact ⟨k s, by simp only [Rig.moveCore, hs]⟩
  cases a with
  | engine => exact moveCore _ _
  | reset => exact ⟨_, resetMove⟩
  | host =>
    simp only [Rig.move, Rig.hostMove]
    split
    · split
      · exact moveCore _ _
      · exact ⟨_, rfl⟩
    · exact ⟨_, rfl⟩

/-- R35, R95: every move keeps this. -/
theorem Rig.Sound.move (hr : r.Sound) (h : r.move a = .next r') : r'.Sound := by
  obtain ⟨hinv, hret⟩ := hr
  obtain ⟨-, s, hs, rfl⟩ | ⟨-, rfl⟩ | ⟨-, -, rfl⟩ | ⟨-, hd, op, rest, htodo, ⟨c, s, -, hs, rfl⟩ | ⟨-, rfl⟩⟩ := move_next h
  · exact ⟨takeTurn_keeps_inv (x := engineTurn) hinv hs, hret⟩
  · exact ⟨(inv_withInputs _).mpr inv_reset, hret⟩
  · exact ⟨hinv, hret⟩
  · exact ⟨takeTurn_keeps_inv (x := hostTurn c) hinv hs, observe_endsInReturn hd htodo hret _⟩
  · exact ⟨hinv, observe_endsInReturn hd htodo hret _⟩

/-- Log 13: a driver that has ended stays as it is. -/
theorem move_ended (hd : r.driver.status ≠ .running) (h : r.move a = .next r') : r'.driver = r.driver := by
  obtain ⟨-, s, -, rfl⟩ | ⟨-, rfl⟩ | ⟨-, -, rfl⟩ | ⟨-, hrun, -⟩ := move_next h
  · rfl
  · rfl
  · rfl
  · exact absurd hrun hd

/-- R95, R120: while the driver runs, a move takes the rig nearer to its end, or it leaves PHASE as it is and is not the host's
with an idle core and not the engine's with a busy one. -/
theorem move_progress (hr : r.Sound) (hrun : r.driver.status = .running) (h : r.move a = .next r') :
    r'.distance < r.distance ∨ (r'.distance = r.distance ∧ r'.core.phase = r.core.phase ∧
      (a = .host → r.core.phase ≠ .idle) ∧ (a = .engine → r.core.phase = .idle)) := by
  obtain ⟨hinv, hret⟩ := hr
  obtain ⟨rfl, s, hs, rfl⟩ | ⟨rfl, rfl⟩ | ⟨rfl, hno, -⟩ | ⟨rfl, -, op, rest, htodo, hline⟩ := move_next h
  · by_cases hp : r.core.phase = .idle
    · obtain rfl : r.core = s := by injection (engineStep_idle hp).symm.trans hs
      exact .inr ⟨rfl, rfl, Agent.noConfusion, fun _ => hp⟩
    · exact .inl (distance_lt_of_stepsLeft_lt rfl (engineStep_stepsLeft_lt hinv hp hs))
  · by_cases hp : r.core.phase = .idle
    · have hleft : r.core.resetNow.stepsLeft = r.core.stepsLeft := (stepsLeft_idle hp).symm
      exact .inr ⟨by simp only [Rig.distance, hleft], hp.symm, Agent.noConfusion, Agent.noConfusion⟩
    · exact .inl (distance_lt_of_stepsLeft_lt rfl (stepsLeft_pos hinv hp))
  · have hlast := hret hrun
    obtain hended | hnil := hno
    · exact absurd hrun hended
    · rw [hnil] at hlast
      cases hlast
  · obtain ⟨c, s, hc, hs, rfl⟩ | ⟨hc, rfl⟩ := hline
    · obtain hless | ⟨rfl, hbit, hsame⟩ := observe_linesLeft hrun htodo s.result
      · exact .inl (distance_lt_of_linesLeft_lt hless)
      · obtain ⟨rfl, hbusy⟩ := waitIdle_sees_busy hc hs hbit
        refine .inr ⟨?_, rfl, fun _ => hbusy, Agent.noConfusion⟩
        rw [hsame]
        rfl
    · obtain hless | ⟨rfl, -⟩ := observe_linesLeft hrun htodo 0
      · exact .inl (distance_lt_of_linesLeft_lt hless)
      · cases hc

end

/-! ### Fair runs of host and core -/

/-- R48: the run along an infinite sequence of moves makes its next move. -/
theorem rigAlong_next {moves : Nat → Agent} {r t : Rig} {n : Nat} (h : rigAlong moves r n = .next t) :
    rigAlong moves r (n + 1) = t.move (moves n) := by
  rw [rigAlong_succ h]
  simp only [Rig.run]
  cases t.move (moves n) <;> rfl

/-- R35, R38: an infinite sequence of moves runs on, without stopping. -/
theorem rigAlong_states (moves : Nat → Agent) {r : Rig} (hr : r.Sound) :
    ∃ x : Nat → Rig, ∀ n, rigAlong moves r n = .next (x n) ∧ (x n).Sound ∧ (x n).move (moves n) = .next (x (n + 1)) := by
  have completes (n : Nat) : ∃ t, rigAlong moves r n = .next t ∧ t.Sound := by
    induction n with
    | zero => exact ⟨r, rfl, hr⟩
    | succ n ih =>
      obtain ⟨t, ht, hsound⟩ := ih
      obtain ⟨u, hu⟩ := move_answers_next hsound.core (moves n)
      exact ⟨u, (rigAlong_next ht).trans hu, hsound.move hu⟩
  choose x hx hsound using completes
  exact ⟨x, fun n => ⟨hx n, hsound n, (rigAlong_next (hx n)).symm.trans (hx (n + 1))⟩⟩

/-- R120: where the engine is weakly fair and the host goes on, the driver ends. Else, from some point on, no move would take the
rig nearer to its end; then an idle core would stay idle and stop the host, and a busy one would stop the engine. -/
theorem fair_driver_ends {moves : Nat → Agent} {r : Rig} (hr : r.Sound) (hfair : RigEngineFair moves r)
    (hhost : HostGoesOn moves) : ∃ n t, rigAlong moves r n = .next t ∧ t.driver.status ≠ .running := by
  obtain ⟨x, hx⟩ := rigAlong_states moves hr
  suffices hended : ∃ n, (x n).driver.status ≠ .running by
    obtain ⟨n, hn⟩ := hended
    exact ⟨n, x n, (hx n).1, hn⟩
  by_contra hrun
  simp only [not_exists, not_not] at hrun
  obtain ⟨N, hN⟩ := eventually_of_descends_or (μ := fun n => (x n).distance) fun n => by
    obtain ⟨-, hsound, hmove⟩ := hx n
    exact move_progress hsound (hrun n) hmove
  by_cases hidle : ∃ k, N ≤ k ∧ (x k).core.phase = .idle
  · obtain ⟨k, hNk, hk⟩ := hidle
    have stays (n : Nat) (hn : k ≤ n) : (x n).core.phase = .idle := by
      induction n, hn using Nat.le_induction with
      | base => exact hk
      | succ n hn ih =>
        obtain ⟨hphase, -⟩ := hN n (hNk.trans hn)
        exact hphase.trans ih
    obtain ⟨n, hn, hhostn⟩ := hhost k
    obtain ⟨-, hbusy, -⟩ := hN n (hNk.trans hn)
    exact hbusy hhostn (stays n hn)
  · obtain ⟨k, hk, hengine⟩ := hfair N fun k hk => ⟨x k, (hx k).1, fun hp => hidle ⟨k, hk, hp⟩⟩
    obtain ⟨-, -, hengineIdle⟩ := hN k hk
    exact hidle ⟨k, hk, hengineIdle hengine⟩

/-- R95: without a reset a driver that has ended has returned. -/
theorem returned_of_ended {m : List Byte} {s : State} {moves : Nat → Agent} {n : Nat} {r : Rig} (hm : m.length < 2 ^ 61)
    (hs : s.Inv) (hmoves : ∀ k, moves k ≠ .reset) (h : rigAlong moves ⟨Driver.start m true, s⟩ n = .next r)
    (hended : r.driver.status ≠ .running) : ∃ d, r.driver.status = .returned d := by
  have hlist : ∀ a ∈ (List.range n).map moves, a ≠ .reset := List.forall_mem_map.mpr fun k _ => hmoves k
  obtain ⟨r', h', hstatus⟩ := driverReturnsOnlyTheMessageHash m s _ hm hs hlist
  obtain rfl : r = r' := by injection h.symm.trans h'
  obtain hrun | ⟨d, hd, -⟩ := hstatus
  · exact absurd hrun hended
  · exact ⟨d, hd⟩

/-- Settles O56: the driver ends, and without a reset it does not fail. -/
theorem fairDriverEnds : Obligations.FairDriverEnds := by
  intro m s moves hm hs hfair hhost
  obtain ⟨n, r, hr, hended⟩ := fair_driver_ends ⟨hs, start_endsInReturn hm⟩ hfair hhost
  exact ⟨n, r, hr, hended, fun hmoves => returned_of_ended hm hs hmoves hr hended⟩

/-! ### Alternating moves -/

/-- Host and engine in turns, the host first. -/
def hostEngineInTurns (k : Nat) : Agent := if k % 2 = 0 then .host else .engine

theorem hostEngineInTurns_even (n : Nat) : hostEngineInTurns (2 * n) = .host := if_pos (by omega)

theorem hostEngineInTurns_odd (n : Nat) : hostEngineInTurns (2 * n + 1) = .engine := if_neg (by omega)

theorem hostEngineInTurns_ne_reset (k : Nat) : hostEngineInTurns k ≠ .reset := by
  unfold hostEngineInTurns
  split <;> exact Agent.noConfusion

/-- The first 2n of these moves are n times one of each. -/
theorem map_hostEngineInTurns (n : Nat) :
    (List.range (2 * n)).map hostEngineInTurns = (List.replicate n [Agent.host, Agent.engine]).flatten := by
  induction n with
  | zero => rfl
  | succ n ih =>
    rw [List.replicate_succ', List.flatten_append, ← ih, Nat.mul_succ, List.range_succ, List.range_succ]
    simp [hostEngineInTurns_even, hostEngineInTurns_odd]

/-- R120: with host and engine in turns the engine is fair and the host goes on. -/
theorem hostEngineInTurns_fair (r : Rig) : RigEngineFair hostEngineInTurns r :=
  fun n _ => ⟨2 * n + 1, by omega, hostEngineInTurns_odd n⟩

theorem hostEngineInTurns_hostGoesOn : HostGoesOn hostEngineInTurns := fun n => ⟨2 * n, by omega, hostEngineInTurns_even n⟩

/-- Log 13: a driver that has ended after n moves has ended after any more. -/
theorem rigAlong_ended {moves : Nat → Agent} {r t : Rig} {n m : Nat} (hr : r.Sound) (h : rigAlong moves r n = .next t)
    (hended : t.driver.status ≠ .running) (hnm : n ≤ m) :
    ∃ u, rigAlong moves r m = .next u ∧ u.driver.status ≠ .running := by
  obtain ⟨x, hx⟩ := rigAlong_states moves hr
  refine ⟨x m, (hx m).1, ?_⟩
  induction m, hnm using Nat.le_induction with
  | base =>
    obtain rfl : t = x n := by injection h.symm.trans (hx n).1
    exact hended
  | succ m _ ih =>
    obtain ⟨-, -, hmove⟩ := hx m
    rw [move_ended ih hmove]
    exact ih

/-- Settles O53: alternating moves are fair, so the driver ends, and an even number of moves ends it too. -/
theorem driverReturnsUnderAlternatingMoves : Obligations.DriverReturnsUnderAlternatingMoves := by
  intro m s hm hs
  have hsound : Rig.Sound ⟨Driver.start m true, s⟩ := ⟨hs, start_endsInReturn hm⟩
  obtain ⟨n, t, ht, htended⟩ := fair_driver_ends hsound (hostEngineInTurns_fair _) hostEngineInTurns_hostGoesOn
  obtain ⟨r, hr, hended⟩ := rigAlong_ended hsound ht htended (Nat.le_mul_of_pos_left n Nat.two_pos)
  obtain ⟨d, hd⟩ := returned_of_ended hm hs hostEngineInTurns_ne_reset hr hended
  rw [rigAlong, map_hostEngineInTurns] at hr
  exact ⟨n, r, d, hr, hd⟩

end Sys2Proof.Machine
end

section
/-! Known answers of the block function and of the message digest (95_test_vectors.md V6, E1, E2). -/

namespace Sys2Proof.Machine

open Sys2Proof

/-! ### The block function (R86)

The rounds are nested 64 deep, which needs more than the default recursion depth to evaluate. -/

section

set_option maxRecDepth 4000

/-- E2, V6: from IV, the one block of "abc". -/
theorem compress_abc :
    compress romIV #v[0x61626380, 0, 0, 0, 0, 0, 0, 0, 0, 0, 0, 0, 0, 0, 0, 0x00000018] =
      #v[0xba7816bf, 0x8f01cfea, 0x414140de, 0x5dae2223, 0xb00361a3, 0x96177a9c, 0xb410ff61, 0xf20015ad] := by
  decide

/-- V6: from IV, the block of zeros. -/
theorem compress_zeros :
    compress romIV (Vector.replicate 16 0) =
      #v[0xda5698be, 0x17b9b469, 0x62335799, 0x779fbeca, 0x8ce5d491, 0xc0d26243, 0xbafef9ea, 0x1837a9d8] := by
  decide

/-- E1: from IV, the one block of the empty message. -/
theorem compress_empty :
    compress romIV #v[0x80000000, 0, 0, 0, 0, 0, 0, 0, 0, 0, 0, 0, 0, 0, 0, 0] =
      #v[0xe3b0c442, 0x98fc1c14, 0x9afbf4c8, 0x996fb924, 0x27ae41e4, 0x649b934c, 0xa495991b, 0x7852b855] := by
  decide

end

/-- Settles O43: the two rows of V6 from IV, each by evaluating R86's function. -/
theorem blockFunctionKnownAnswers : Obligations.BlockFunctionKnownAnswers := ⟨compress_abc, compress_zeros⟩

/-! ### The message digest (R98) -/

/-- R98: the digest of a message of one block. -/
theorem messageHash_of_one_block {m : List Byte} {block : Vector Word 16} (hm : m.length < 2 ^ 61)
    (hblock : messageBlocks m = [block]) : messageHash m = some (serialize (compress romIV block)) := by
  rw [messageHash_eq hm, hblock]
  rfl

/-- R92, R94: the block of the empty message is the byte 0x80 and zeros. -/
theorem messageBlocks_empty :
    messageBlocks [] = [#v[0x80000000, 0, 0, 0, 0, 0, 0, 0, 0, 0, 0, 0, 0, 0, 0, 0]] := by decide

/-- R92, R94: the block of "abc" ends with its length of 24 bits. -/
theorem messageBlocks_abc :
    messageBlocks [0x61, 0x62, 0x63] = [#v[0x61626380, 0, 0, 0, 0, 0, 0, 0, 0, 0, 0, 0, 0, 0, 0, 0x00000018]] := by decide

/-- Settles O50: both messages are one block each, whose known answer is serialised. -/
theorem messageDigestKnownAnswers : Obligations.MessageDigestKnownAnswers := by
  refine ⟨?empty, ?abc⟩
  case empty =>
    rw [messageHash_of_one_block (by decide) messageBlocks_empty, compress_empty]
    decide
  case abc =>
    rw [messageHash_of_one_block (by decide) messageBlocks_abc, compress_abc]
    decide

end Sys2Proof.Machine
end
